-- ==== Sys2Proof/Word.lean ====
section
/-! DEFINITION. The machine's words: the byte, the 16-bit word, and the field widths of the one instruction format. -/

namespace Sys2Proof

/-- A memory byte, a general register, a timer: 8 bits (10_state.md R20). -/
abbrev Byte := BitVec 8

/-- An opcode, `I`, `pc`, a stack slot: 16 bits (10_state.md R20, 30_encoding.md R62). -/
abbrev Word := BitVec 16

/-- The 4-bit field: a register nibble, the sprite height, the family (30_encoding.md R63). -/
abbrev Nibble := BitVec 4

/-- The 12-bit address field `nnn` (30_encoding.md R63). -/
abbrev Addr12 := BitVec 12

end Sys2Proof
end

