-- ==== Sys2Proof/Config.lean ====
section
/-! DEFINITION. The parameters of 00_scope.md R6, each a field of `Params` that carries the constraints of R7, and the values
this hardware takes. The font, which the spec leaves open, is two constants with no body. -/

namespace Sys2Proof.Config

/-- The general registers V0 to VF: as many as a register nibble names (R6, 30_encoding.md R64). A literal of the instruction
format, not a parameter (93_implementation_defined.md part 1). -/
abbrev nregs : Nat := 16

/-- The logical keys 0x0 to 0xF (R6). A literal, not a parameter (93_implementation_defined.md part 1). -/
abbrev nkeys : Nat := 16

/-- The two readings of the `0x0` family (30_encoding.md R68, 90_conflicts.md C3). -/
inductive ZeroFamilyMatch where
  | exact    -- only 0x00E0 and 0x00EE are CLS and RET
  | lowByte  -- every 0x0XE0 and 0x0XEE is
  deriving DecidableEq, Repr

/-- What V0 to VF and I hold after construction (92_eei_decisions.md D7): 0, or nothing, a read before a write being refused. -/
inductive RegReset where
  | zero
  | unwritten
  deriving DecidableEq, Repr

/-- The parameters (R6), with the constraints that make every rule well defined (R7, 92_eei_decisions.md D19): a configuration
that breaks one is no `Params`. The rows of R6 that 93_implementation_defined.md calls fixed literals are fields too, with
their one value. -/
structure Params where
  /-- `MEM_SIZE`: bytes of memory. -/
  memSize : Nat := 4096
  /-- `ENTRY`: where the program is loaded and where `pc` starts. -/
  entry : Nat := 0x200
  /-- `NREGS`. -/
  nregs : Nat := 16
  /-- `REG_W`: bits of a general register. -/
  regW : Nat := 8
  /-- `I_W`: bits of the index register. -/
  iW : Nat := 16
  /-- `PC_W`: bits of the program counter. -/
  pcW : Nat := 16
  /-- `STACK_DEPTH`: return addresses the call stack holds. -/
  stackDepth : Nat := 12
  /-- `FB_W`: pixels in a row. -/
  fbW : Nat := 64
  /-- `FB_H`: rows. -/
  fbH : Nat := 32
  /-- `NKEYS`. -/
  nkeys : Nat := 16
  /-- `TIMER_W`: bits of each timer. -/
  timerW : Nat := 8
  /-- `TIMER_HZ`: nominal, not modelled; no rule depends on it (R12). -/
  timerHz : Nat := 60
  /-- `CYCLES_PER_TICK` (R8). -/
  cyclesPerTick : Nat := 1
  /-- `ZERO_FAMILY_MATCH` (92_eei_decisions.md D5). -/
  zeroFamilyMatch : ZeroFamilyMatch := .exact
  /-- `FONT_BASE` (92_eei_decisions.md D6). -/
  fontBase : Nat
  /-- `FONT_DATA` (92_eei_decisions.md D6). -/
  fontData : List Byte
  /-- `REG_RESET` (92_eei_decisions.md D7). -/
  regReset : RegReset := .zero
  /-- R7. -/
  entry_lt : entry < memSize := by decide
  /-- R7: every address fits in `I` and `pc`. -/
  memSize_le : memSize ≤ 65536 := by decide
  /-- R7. -/
  stackDepth_pos : 1 ≤ stackDepth := by decide
  /-- R7. -/
  fbW_pos : 1 ≤ fbW := by decide
  /-- R7. -/
  fbH_pos : 1 ≤ fbH := by decide
  /-- R7. -/
  cyclesPerTick_pos : 1 ≤ cyclesPerTick := by decide
  /-- R7: the font ends at or below `ENTRY`. -/
  font_fits : fontBase + fontData.length ≤ entry
  /-- The fixed literals (93_implementation_defined.md part 1), which the types of Word.lean have. -/
  fixed : nregs = Config.nregs ∧ regW = 8 ∧ iW = 16 ∧ pcW = 16 ∧ nkeys = Config.nkeys ∧ timerW = 8 := by decide
  deriving DecidableEq, Repr

/-- `MAX_ROM = MEM_SIZE - ENTRY` (R6): the longest program image. -/
def Params.maxRom (c : Params) : Nat := c.memSize - c.entry

/-- FREE VALUE (notes/assumptions/1.md): the font's base before the constraint of R7 is applied. -/
opaque rawFontBase : Nat

/-- FREE VALUE (notes/assumptions/1.md): the font's bytes before the constraint of R7 is applied. -/
opaque rawFontData : List Byte

/-- `FONT_BASE` of this hardware, OPEN (R6, 92_eei_decisions.md D6): any address up to `ENTRY`. -/
def openFontBase : Nat := min rawFontBase 0x200

/-- `FONT_DATA` of this hardware, OPEN (R6, 92_eei_decisions.md D6): any bytes that end at or below `ENTRY`. Every pair that
meets R7's constraint is this pair for some choice of the raw constants. -/
def openFontData : List Byte := rawFontData.take (0x200 - openFontBase)

/-- R7 for the open font. -/
theorem open_font_fits : openFontBase + openFontData.length ≤ 0x200 := by
  have h : openFontBase ≤ 0x200 := Nat.min_le_right _ _
  have h' : openFontData.length ≤ 0x200 - openFontBase := by
    simp only [openFontData, List.length_take]; omega
  omega

/-- This hardware: every row of R6's table at its value there, and the open font. -/
abbrev reference : Params where
  fontBase := openFontBase
  fontData := openFontData
  font_fits := open_font_fits

end Sys2Proof.Config
end

