-- ==== Sys2Proof/Syntax.lean ====
section
/-! DEFINITION. The instructions: one constructor for each row of spec/opcode_table.json, and the decoder's record of
30_encoding.md R65 (its tag and its fields), and the assembler's source lines (R72, R73). -/

namespace Sys2Proof

/-- A general register's number, 0 to 15 (10_state.md R21). -/
abbrev Reg := Fin Config.nregs

/-- One constructor per row of spec/opcode_table.json, in the table's order. A no-op keeps the twelve bits it ignores,
so that no bit of an opcode is lost (30_encoding.md R71: decoding is injective). -/
inductive Instr where
  | cls                                   -- 00E0 CLS
  | ret                                   -- 00EE RET
  | jp (nnn : Addr12)                     -- 1NNN JP addr
  | call (nnn : Addr12)                   -- 2NNN CALL addr
  | seByte (x : Reg) (nn : Byte)          -- 3XNN SE Vx, byte
  | ldByte (x : Reg) (nn : Byte)          -- 6XNN LD Vx, byte
  | addByte (x : Reg) (nn : Byte)         -- 7XNN ADD Vx, byte
  | ldI (nnn : Addr12)                    -- ANNN LD I, addr
  | drw (x y : Reg) (n : Nibble)          -- DXYN DRW Vx, Vy, nibble
  | nop0 (rest : Addr12)                  -- 0NNN but 00E0 and 00EE
  | nop4 (rest : Addr12)                  -- 4NNN
  | nop5 (rest : Addr12)                  -- 5NNN
  | nop8 (rest : Addr12)                  -- 8NNN
  | nop9 (rest : Addr12)                  -- 9NNN
  | nopB (rest : Addr12)                  -- BNNN
  | nopC (rest : Addr12)                  -- CNNN
  | nopE (rest : Addr12)                  -- ENNN
  | nopF (rest : Addr12)                  -- FNNN
  deriving DecidableEq, Repr

/-- The decoder's tag (30_encoding.md R65): nine instructions and the explicit no-op. -/
inductive Kind where
  | cls | ret | jp | call | seByte | ldByte | addByte | ldI | drw | nop
  deriving DecidableEq, Repr

/-- The tag of an instruction (30_encoding.md R66): the nine no-op rows share one. -/
def Instr.kind : Instr → Kind
  | .cls => .cls
  | .ret => .ret
  | .jp _ => .jp
  | .call _ => .call
  | .seByte _ _ => .seByte
  | .ldByte _ _ => .ldByte
  | .addByte _ _ => .addByte
  | .ldI _ => .ldI
  | .drw _ _ _ => .drw
  | .nop0 _ => .nop
  | .nop4 _ => .nop
  | .nop5 _ => .nop
  | .nop8 _ => .nop
  | .nop9 _ => .nop
  | .nopB _ => .nop
  | .nopC _ => .nop
  | .nopE _ => .nop
  | .nopF _ => .nop

/-- What the decoder computes from every word, used or not (30_encoding.md R63, R65). -/
structure Decoded where
  kind : Kind
  opcode : Word
  family : Nibble
  x : Nibble
  y : Nibble
  n : Nibble
  nn : Byte
  nnn : Addr12
  deriving DecidableEq, Repr

/-- One line of assembler source (30_encoding.md R72), with the data directives of R73. A number may be out of the range its
operand has: the assembler refuses it. -/
inductive AsmLine where
  | cls
  | ret
  | jp (addr : Nat)
  | call (addr : Nat)
  | seByte (x : Reg) (byte : Nat)
  | ldByte (x : Reg) (byte : Nat)
  | addByte (x : Reg) (byte : Nat)
  | ldI (addr : Nat)
  | drw (x y : Reg) (nibble : Nat)
  | nop (w : Nat)
  | db (b : Nat)
  | dw (w : Nat)
  deriving DecidableEq, Repr

end Sys2Proof
end

