-- ==== Sys2Proof/WellFormed.lean ====
section
/-! DEFINITION. Which terms of `Instr` some word decodes to. Every field has exactly the values its bits have, so the one
check is on the no-ops of family 0, which share their family with CLS and RET (30_encoding.md R66, R68). -/

namespace Sys2Proof

open Config (ZeroFamilyMatch)

/-- The twelve low bits that make a word of family 0 a CLS (30_encoding.md R67). -/
def isClsRest (m : ZeroFamilyMatch) (rest : Addr12) : Bool :=
  match m with
  | .exact => rest == 0x0E0#12
  | .lowByte => rest.setWidth 8 == 0xE0#8

/-- The twelve low bits that make a word of family 0 a RET (30_encoding.md R67). -/
def isRetRest (m : ZeroFamilyMatch) (rest : Addr12) : Bool :=
  match m with
  | .exact => rest == 0x0EE#12
  | .lowByte => rest.setWidth 8 == 0xEE#8

/-- Well-formed under a reading of the zero family: a no-op of family 0 holds neither CLS nor RET. -/
def Instr.wellFormedFor (m : ZeroFamilyMatch) : Instr → Bool
  | .nop0 rest => !isClsRest m rest && !isRetRest m rest
  | .cls => true
  | .ret => true
  | .jp _ => true
  | .call _ => true
  | .seByte _ _ => true
  | .ldByte _ _ => true
  | .addByte _ _ => true
  | .ldI _ => true
  | .drw _ _ _ => true
  | .nop4 _ => true
  | .nop5 _ => true
  | .nop8 _ => true
  | .nop9 _ => true
  | .nopB _ => true
  | .nopC _ => true
  | .nopE _ => true
  | .nopF _ => true

/-- Well-formed on this hardware. -/
def Instr.wellFormed (i : Instr) : Bool := i.wellFormedFor Config.reference.zeroFamilyMatch

end Sys2Proof
end

