-- ==== Sys2Proof/Decode.lean ====
section
/-! DEFINITION. The decoder of 30_encoding.md R62 to R71, on words, on bytes and on the opcode table's numbering, and
after it the encoder, written from the same patterns, and the assembler of R72 and R73. -/

namespace Sys2Proof

open Config (ZeroFamilyMatch)

/-! ## Fields (30_encoding.md R63) -/

/-- `w[15:12]`. -/
def fieldFamily (w : Word) : Nibble := w.extractLsb' 12 4

/-- `w[11:8]`. -/
def fieldX (w : Word) : Nibble := w.extractLsb' 8 4

/-- `w[7:4]`. -/
def fieldY (w : Word) : Nibble := w.extractLsb' 4 4

/-- `w[3:0]`. -/
def fieldN (w : Word) : Nibble := w.extractLsb' 0 4

/-- `w[7:0]`. -/
def fieldNN (w : Word) : Byte := w.extractLsb' 0 8

/-- `w[11:0]`. -/
def fieldNNN (w : Word) : Addr12 := w.extractLsb' 0 12

/-- A register nibble as a register number (30_encoding.md R64). -/
def regOf (f : Nibble) : Reg := f.toFin

/-- A register number as its nibble. -/
def nibbleOf (r : Reg) : Nibble := BitVec.ofFin r

/-! ## The opcode map (30_encoding.md R66, R67) -/

/-- `Kind(w)` (R67): one arm for each of the sixteen families, bits 15 to 12, and no wildcard. -/
def kindOf (m : ZeroFamilyMatch) (w : Word) : Kind :=
  match w[15], w[14], w[13], w[12] with
  | false, false, false, false =>
    if isClsRest m (fieldNNN w) then .cls else if isRetRest m (fieldNNN w) then .ret else .nop
  | false, false, false, true => .jp
  | false, false, true, false => .call
  | false, false, true, true => .seByte
  | false, true, false, false => .nop
  | false, true, false, true => .nop
  | false, true, true, false => .ldByte
  | false, true, true, true => .addByte
  | true, false, false, false => .nop
  | true, false, false, true => .nop
  | true, false, true, false => .ldI
  | true, false, true, true => .nop
  | true, true, false, false => .nop
  | true, true, false, true => .drw
  | true, true, true, false => .nop
  | true, true, true, true => .nop

/-- `Decode(w)` (R65): the tag and every field, whether the instruction uses it or not. -/
def decodeRecord (m : ZeroFamilyMatch) (w : Word) : Decoded :=
  { kind := kindOf m w, opcode := w, family := fieldFamily w, x := fieldX w, y := fieldY w,
    n := fieldN w, nn := fieldNN w, nnn := fieldNNN w }

/-- The instruction a word stands for: its row of the opcode table with the operands that row uses (R66, R67). Total:
no word is illegal (R69). -/
def decodeWith (m : ZeroFamilyMatch) (w : Word) : Instr :=
  match w[15], w[14], w[13], w[12] with
  | false, false, false, false =>
    if isClsRest m (fieldNNN w) then .cls else if isRetRest m (fieldNNN w) then .ret else .nop0 (fieldNNN w)
  | false, false, false, true => .jp (fieldNNN w)
  | false, false, true, false => .call (fieldNNN w)
  | false, false, true, true => .seByte (regOf (fieldX w)) (fieldNN w)
  | false, true, false, false => .nop4 (fieldNNN w)
  | false, true, false, true => .nop5 (fieldNNN w)
  | false, true, true, false => .ldByte (regOf (fieldX w)) (fieldNN w)
  | false, true, true, true => .addByte (regOf (fieldX w)) (fieldNN w)
  | true, false, false, false => .nop8 (fieldNNN w)
  | true, false, false, true => .nop9 (fieldNNN w)
  | true, false, true, false => .ldI (fieldNNN w)
  | true, false, true, true => .nopB (fieldNNN w)
  | true, true, false, false => .nopC (fieldNNN w)
  | true, true, false, true => .drw (regOf (fieldX w)) (regOf (fieldY w)) (fieldN w)
  | true, true, true, false => .nopE (fieldNNN w)
  | true, true, true, true => .nopF (fieldNNN w)

/-- The decoder of this hardware (`ZERO_FAMILY_MATCH` = `exact`, R68). -/
def decode (w : Word) : Instr := decodeWith Config.reference.zeroFamilyMatch w

/-! ## Bytes (30_encoding.md R62, 20_memory.md R52) -/

/-- Why a list of bytes is no instruction. No pair of bytes is refused (R69). -/
inductive DecodeError where
  /-- Fewer than two bytes are left: an instruction is exactly two (R62). -/
  | truncated
  deriving DecidableEq, Repr

/-- Two bytes as the opcode, the first being bits 15:8 (20_memory.md R52). -/
def wordOfBytes (hi lo : Byte) : Word := hi ++ lo

/-- The byte stored first: bits 15:8. -/
def highByte (w : Word) : Byte := w.extractLsb' 8 8

/-- The byte stored second: bits 7:0. -/
def lowByte (w : Word) : Byte := w.extractLsb' 0 8

/-- One instruction from the front of a list of bytes, and the bytes after it. -/
def decodeBytes : List Byte → Except DecodeError (Instr × List Byte)
  | [] => .error .truncated
  | [_] => .error .truncated
  | hi :: lo :: rest => .ok (decode (wordOfBytes hi lo), rest)

/-- The opcode of a word numbered as spec/opcode_table.json numbers it: its low `nbits` bits, every bit above them zero.
Every row is one 16-bit word, so bits 15:0 are the whole instruction (R62). -/
def tableWord (nbits w : Nat) : Word := BitVec.ofNat 16 (w % 2 ^ nbits)

/-- The instruction the decoder reads from that opcode laid out as memory holds it, high byte first. -/
def decodeTableWord (nbits w : Nat) : Option Instr :=
  match decodeBytes [highByte (tableWord nbits w), lowByte (tableWord nbits w)] with
  | .ok (i, _) => some i
  | .error _ => none

/-! ## The encoder -/

/-- A word from its family and its twelve low bits. -/
def packNNN (family : Nibble) (nnn : Addr12) : Word := family ++ nnn

/-- A word from its family, a register nibble and a byte. -/
def packXNN (family : Nibble) (x : Reg) (nn : Byte) : Word := packNNN family (nibbleOf x ++ nn)

/-- A word from its family and three nibbles. -/
def packXYN (family : Nibble) (x y : Reg) (n : Nibble) : Word := packXNN family x (nibbleOf y ++ n)

/-- The word of an instruction, by the patterns of 30_encoding.md R66 and R72. -/
def encode : Instr → Word
  | .cls => packNNN 0x0#4 0x0E0#12
  | .ret => packNNN 0x0#4 0x0EE#12
  | .jp nnn => packNNN 0x1#4 nnn
  | .call nnn => packNNN 0x2#4 nnn
  | .seByte x nn => packXNN 0x3#4 x nn
  | .ldByte x nn => packXNN 0x6#4 x nn
  | .addByte x nn => packXNN 0x7#4 x nn
  | .ldI nnn => packNNN 0xA#4 nnn
  | .drw x y n => packXYN 0xD#4 x y n
  | .nop0 rest => packNNN 0x0#4 rest
  | .nop4 rest => packNNN 0x4#4 rest
  | .nop5 rest => packNNN 0x5#4 rest
  | .nop8 rest => packNNN 0x8#4 rest
  | .nop9 rest => packNNN 0x9#4 rest
  | .nopB rest => packNNN 0xB#4 rest
  | .nopC rest => packNNN 0xC#4 rest
  | .nopE rest => packNNN 0xE#4 rest
  | .nopF rest => packNNN 0xF#4 rest

/-- The two bytes of an instruction, as memory holds them. -/
def encodeBytes (i : Instr) : List Byte := [highByte (encode i), lowByte (encode i)]

/-! ## The assembler (30_encoding.md R72, R73) -/

/-- A number put into a field of so many bits; refused when it is out of range (R72). -/
def inField (bits v : Nat) (f : BitVec bits → List Byte) : Option (List Byte) :=
  if v < 2 ^ bits then some (f (BitVec.ofNat bits v)) else none

/-- A word as its two bytes, high byte first. -/
def wordBytes (w : Word) : List Byte := [highByte w, lowByte w]

/-- The bytes of one source line (R72, R73), or none where the assembler refuses it: a number out of range, or `NOP w` of a
word that is no NOP. -/
def assemble (m : ZeroFamilyMatch) : AsmLine → Option (List Byte)
  | .cls => some (encodeBytes .cls)
  | .ret => some (encodeBytes .ret)
  | .jp addr => inField 12 addr (fun f => encodeBytes (.jp f))
  | .call addr => inField 12 addr (fun f => encodeBytes (.call f))
  | .seByte x byte => inField 8 byte (fun f => encodeBytes (.seByte x f))
  | .ldByte x byte => inField 8 byte (fun f => encodeBytes (.ldByte x f))
  | .addByte x byte => inField 8 byte (fun f => encodeBytes (.addByte x f))
  | .ldI addr => inField 12 addr (fun f => encodeBytes (.ldI f))
  | .drw x y nibble => inField 4 nibble (fun f => encodeBytes (.drw x y f))
  | .nop w => if kindOf m (BitVec.ofNat 16 w) = .nop then inField 16 w wordBytes else none
  | .db b => inField 8 b (fun f => [f])
  | .dw w => inField 16 w wordBytes

/-- A program's bytes, line after line; refused when a line is. -/
def assembleAll (m : ZeroFamilyMatch) : List AsmLine → Option (List Byte)
  | [] => some []
  | line :: rest =>
    match assemble m line, assembleAll m rest with
    | some bytes, some more => some (bytes ++ more)
    | _, _ => none

/-- The line a listing shows for a word (R72): a no-op keeps its word. -/
def lineOf (m : ZeroFamilyMatch) (w : Word) : AsmLine :=
  match decodeWith m w with
  | .cls => if w = encode .cls then .cls else .dw w.toNat
  | .ret => if w = encode .ret then .ret else .dw w.toNat
  | .jp nnn => .jp nnn.toNat
  | .call nnn => .call nnn.toNat
  | .seByte x nn => .seByte x nn.toNat
  | .ldByte x nn => .ldByte x nn.toNat
  | .addByte x nn => .addByte x nn.toNat
  | .ldI nnn => .ldI nnn.toNat
  | .drw x y n => .drw x y n.toNat
  | .nop0 _ => .nop w.toNat
  | .nop4 _ => .nop w.toNat
  | .nop5 _ => .nop w.toNat
  | .nop8 _ => .nop w.toNat
  | .nop9 _ => .nop w.toNat
  | .nopB _ => .nop w.toNat
  | .nopC _ => .nop w.toNat
  | .nopE _ => .nop w.toNat
  | .nopF _ => .nop w.toNat

/-- The low `digits` hexadecimal digits of a number, upper case (R13, R72). -/
def hexDigits : Nat → Nat → List Char
  | 0, _ => []
  | k + 1, v => hexDigits k (v / 16) ++ [(['0', '1', '2', '3', '4', '5', '6', '7', '8', '9', 'A', 'B', 'C', 'D', 'E',
      'F'][v % 16]?).getD '0']

/-- A number as R72 writes it: hexadecimal with `0x`, as many digits as its field has nibbles. -/
def hexText (digits v : Nat) : List Char := ['0', 'x'] ++ hexDigits digits v

/-- A register's name, `V0` to `VF` (R72). -/
def regText (r : Reg) : List Char := 'V' :: hexDigits 1 r.val

/-- A line as R72 and R73 write it: the mnemonic, a space, and the operands separated by a comma and a space. -/
def asmText : AsmLine → List Char
  | .cls => "CLS".toList
  | .ret => "RET".toList
  | .jp addr => "JP ".toList ++ hexText 3 addr
  | .call addr => "CALL ".toList ++ hexText 3 addr
  | .seByte x byte => "SE ".toList ++ regText x ++ ", ".toList ++ hexText 2 byte
  | .ldByte x byte => "LD ".toList ++ regText x ++ ", ".toList ++ hexText 2 byte
  | .addByte x byte => "ADD ".toList ++ regText x ++ ", ".toList ++ hexText 2 byte
  | .ldI addr => "LD I, ".toList ++ hexText 3 addr
  | .drw x y nibble => "DRW ".toList ++ regText x ++ ", ".toList ++ regText y ++ ", ".toList ++ hexText 1 nibble
  | .nop w => "NOP ".toList ++ hexText 4 w
  | .db b => "DB ".toList ++ hexText 2 b
  | .dw w => "DW ".toList ++ hexText 4 w

end Sys2Proof
end

