-- ==== Sys2Proof/Machine/State.lean ====
section
/-! DEFINITION. The machine's whole state, 10_state.md R20, as plain data, with the host's script of tick inputs beside it;
the reasons a step can stop; and the state after reset (10_state.md R42). -/

namespace Sys2Proof.Machine

open Sys2Proof

/-- `RUN` (10_state.md R36). -/
inductive RunState where
  | running | paused | halted
  deriving DecidableEq, Repr

/-- `ERR` (10_state.md R37). -/
inductive ErrLatch where
  | none | stackOverflow | stackUnderflow | memoryBounds
  deriving DecidableEq, Repr

/-- A host signal, an element of `events_in` (00_scope.md R10). -/
inductive HostEvent where
  | quit | togglePause
  deriving DecidableEq, Repr

/-- What the host supplies to one tick (00_scope.md R10): `keys_in` and `events_in`. -/
structure TickInput where
  keys : Vector Bool Config.nkeys
  events : List HostEvent
  deriving DecidableEq, Repr

/-- Memory, as the bytes that differ from what construction puts there without a program (`Memory.background`): addresses
strictly rising, below `MEM_SIZE`. The form is `Memory.wf` in Machine/Ops.lean (notes/assumptions/2.md). -/
abbrev Memory := List Host.Cell

/-- The framebuffer, row by row: `FB[y][x]` (10_state.md R33). -/
abbrev Framebuffer (cfg : Config.Params) := Vector (Vector Bool cfg.fbW) cfg.fbH

/-- The state record of 10_state.md R20, for a configuration; `State` alone is this hardware's. `inputs` is the model's own: what the host will supply to the coming ticks, the next
one first (notes/assumptions/7.md). -/
structure State (cfg : Config.Params := Config.reference) where
  mem : Memory
  v : Vector Byte Config.nregs
  i : Word
  pc : Word
  stack : Vector Word cfg.stackDepth
  sp : Fin (cfg.stackDepth + 1)
  fb : Framebuffer cfg
  keys : Vector Bool Config.nkeys
  dt : Byte
  st : Byte
  run : RunState
  err : ErrLatch
  inputs : List TickInput
  deriving DecidableEq, Repr

/-- The core's fatal startup errors (60_exceptions.md R105 class (a)). A runtime error is no `Fault`: it is a next state in
which `RUN` is Halted and `ERR` names it (60_exceptions.md R107). -/
inductive Fault where
  /-- Raised by construction alone, when the image is longer than `MEM_SIZE - ENTRY` (70_reset_and_hazards.md R125). No step
  raises it. Safe: the spec says that no machine exists then. -/
  | romTooLarge
  deriving DecidableEq, Repr

/-- Why an instruction has no meaning in the model. -/
inductive Refusal where
  /-- Raised by an arm of `exec` for an instruction that is not modelled yet. No arm raises it now. Safe. -/
  | notModelled (mnemonic : String)
  /-- Raised by a cycle of a configuration with `REG_RESET = unwritten`, in which an instruction reads a register that nothing has
  written since construction (92_eei_decisions.md D7; Machine/Configured.lean). This hardware takes `zero`: no step of it raises
  this. Safe. -/
  | unwrittenRegister
  deriving DecidableEq, Repr

/-- What the host supplies when the script says nothing: no key down and no signal (DESIGN CHOICE, notes/assumptions/8.md). -/
def TickInput.idle : TickInput := { keys := Vector.replicate _ false, events := [] }

/-- The state of a configuration after construction with an empty image (10_state.md R42, 70_reset_and_hazards.md R124, R126).
Under `REG_RESET = zero` V0 to VF and I are 0; under `unwritten` what they hold is never read. The stack slots are the model's
choice (DESIGN CHOICE, notes/assumptions/5.md), and so is the empty script (notes/assumptions/7.md). -/
def State.init (cfg : Config.Params) : State cfg where
  mem := []
  v := Vector.replicate _ 0
  i := 0
  pc := BitVec.ofNat _ cfg.entry
  stack := Vector.replicate _ 0
  sp := 0
  fb := Vector.replicate _ (Vector.replicate _ false)
  keys := Vector.replicate _ false
  dt := 0
  st := 0
  run := .running
  err := .none
  inputs := []

/-- This hardware right after reset. -/
def State.reset : State := State.init Config.reference

end Sys2Proof.Machine
end

