-- ==== Sys2Proof/Machine/Ops.lean ====
section
/-! DEFINITION. The named operations over memory, the registers, the call stack, the framebuffer and the timers, and taking
a runtime error. There is no return from an error beside it: the core has none (60_exceptions.md R111). -/

namespace Sys2Proof.Machine

open Sys2Proof

variable {cfg : Config.Params}

/-! ## Runtime errors (60_exceptions.md R106, R107) -/

/-- An error raised inside a cycle, with the address a bounds error names (00_scope.md R15, 40_engine.md R82). -/
inductive RuntimeError where
  | stackOverflow
  | stackUnderflow
  | memoryBounds (addr : Nat)
  deriving DecidableEq, Repr

/-- The value `ERR` takes for an error: the faulting address is not kept (60_exceptions.md R106). -/
def RuntimeError.latch : RuntimeError → ErrLatch
  | .stackOverflow => .stackOverflow
  | .stackUnderflow => .stackUnderflow
  | .memoryBounds _ => .memoryBounds

/-- The numeric code of `ERR` (10_state.md R37). -/
def ErrLatch.code : ErrLatch → Nat
  | .none => 0
  | .stackOverflow => 1
  | .stackUnderflow => 2
  | .memoryBounds => 3

/-- TAKING A RUNTIME ERROR (60_exceptions.md R107): from the state before the cycle, `RUN` becomes Halted, `ERR` the error,
and nothing else changes. -/
def State.takeError (s : State cfg) (e : RuntimeError) : State cfg := { s with run := .halted, err := e.latch }

/-- The end of an instruction whose body, run on a state with `pc` past the instruction, answered `r`: its state, or, when it
raised an error, the state BEFORE the cycle with the error taken (00_scope.md R16, 60_exceptions.md R107). -/
def finish (before : State cfg) (r : Except RuntimeError (State cfg)) : Host.Outcome (State cfg) Fault Refusal :=
  match r with
  | .ok t => .next t
  | .error e => .next (before.takeError e)

/-! ## Memory (20_memory.md R44 to R54) -/

/-- What an address holds with no program loaded (20_memory.md R46): the font's bytes in the font region, 0 elsewhere. The
font ends at or below `ENTRY` (00_scope.md R7), so from there on it is 0. -/
def Memory.background (cfg : Config.Params) (a : Nat) : Byte :=
  if cfg.entry ≤ a then 0
  else if a < cfg.fontBase then 0
  else (cfg.fontData[a - cfg.fontBase]?).getD 0

/-- The byte an address holds. -/
def Memory.byteAt (cfg : Config.Params) : Memory → Nat → Byte
  | [], a => Memory.background cfg a
  | (k, b) :: rest, a => if k = a then b else Memory.byteAt cfg rest a

/-- `MemWrite(addr, 1, v)` (20_memory.md R50), keeping the canonical form: a byte that is the background's is not listed. -/
def Memory.write (cfg : Config.Params) : Memory → Nat → Byte → Memory
  | [], a, v => if v = Memory.background cfg a then [] else [(a, v)]
  | (k, b) :: rest, a, v =>
    if a < k then
      if v = Memory.background cfg a then (k, b) :: rest else (a, v) :: (k, b) :: rest
    else if a = k then
      if v = Memory.background cfg a then rest else (a, v) :: rest
    else (k, b) :: Memory.write cfg rest a v

/-- The canonical form: addresses below `MEM_SIZE` and strictly rising, no byte that is the background's. -/
def Memory.wf (cfg : Config.Params) : Memory → Bool
  | [] => true
  | (k, b) :: rest =>
    decide (k < cfg.memSize) && decide (b ≠ Memory.background cfg k) &&
      rest.all (fun d => decide (k < d.1)) && Memory.wf cfg rest

/-- `MemRead(addr, 1)` (20_memory.md R48): an address at or above `MEM_SIZE` raises `MemoryBounds`. -/
def Memory.read (cfg : Config.Params) (m : Memory) (a : Nat) : Except RuntimeError Byte :=
  if cfg.memSize ≤ a then .error (.memoryBounds a) else .ok (m.byteAt cfg a)

/-- Bytes written one after another from an address on (70_reset_and_hazards.md R124, the image's loop). -/
def Memory.writeBytes (cfg : Config.Params) (m : Memory) (a : Nat) : List Byte → Memory
  | [] => m
  | b :: bs => Memory.writeBytes cfg (m.write cfg a b) (a + 1) bs

/-- The byte an address of a state's memory holds. -/
def State.byteAt (s : State cfg) (a : Nat) : Byte := s.mem.byteAt cfg a

/-- The memory a state holds, read at one address. -/
def State.readByte (s : State cfg) (a : Nat) : Except RuntimeError Byte := s.mem.read cfg a

/-! ## Registers (00_scope.md R15, 10_state.md R21 to R28) -/

/-- VF, register 15, the flag register (10_state.md R23). -/
def vf : Reg := 15

/-- `V[r]`. No register is hardwired (10_state.md R21). -/
def State.getV (s : State cfg) (r : Reg) : Byte := s.v[r.val]

/-- `V[r] <- b`. -/
def State.setV (s : State cfg) (r : Reg) (b : Byte) : State cfg := { s with v := s.v.set r.val b }

/-- `I <- w`. -/
def State.setI (s : State cfg) (w : Word) : State cfg := { s with i := w }

/-- `pc <- w`. -/
def State.setPc (s : State cfg) (w : Word) : State cfg := { s with pc := w }

/-- One instruction's width added to `pc`, mod 65536 (10_state.md R28). -/
def State.advancePc (s : State cfg) : State cfg := { s with pc := s.pc + 2 }

/-! ## Call stack (10_state.md R30 to R32) -/

/-- `push(a)` (10_state.md R31). -/
def State.push (s : State cfg) (a : Word) : Except RuntimeError (State cfg) :=
  if h : s.sp.val < cfg.stackDepth then
    .ok { s with stack := s.stack.set s.sp.val a, sp := ⟨s.sp.val + 1, Nat.succ_lt_succ h⟩ }
  else .error .stackOverflow

/-- `pop()` (10_state.md R31): the address popped and the state after it. -/
def State.pop (s : State cfg) : Except RuntimeError (Word × State cfg) :=
  if h : s.sp.val = 0 then .error .stackUnderflow
  else
    have hlt : s.sp.val - 1 < cfg.stackDepth := by have := s.sp.isLt; omega
    .ok (s.stack[s.sp.val - 1], { s with sp := ⟨s.sp.val - 1, Nat.lt_succ_of_lt hlt⟩ })

/-! ## Framebuffer (10_state.md R33) -/

/-- The pixel in column `x` of row `y`; there is none outside the grid, and none is on there. -/
def Framebuffer.pixel (fb : Framebuffer cfg) (y x : Nat) : Bool :=
  if h : y < cfg.fbH ∧ x < cfg.fbW then fb[y][x] else false

/-- One pixel written; nothing is written outside the grid. -/
def Framebuffer.setPixel (fb : Framebuffer cfg) (y x : Nat) (on : Bool) : Framebuffer cfg :=
  if h : y < cfg.fbH ∧ x < cfg.fbW then fb.set y (fb[y].set x on) else fb

/-- Every pixel off (43_display.md R98). -/
def Framebuffer.blank : Framebuffer cfg := Vector.replicate _ (Vector.replicate _ false)

/-- `FB` replaced. -/
def State.setFb (s : State cfg) (fb : Framebuffer cfg) : State cfg := { s with fb := fb }

/-! ## Timers (60_exceptions.md R116) -/

/-- One timer counted down, never below 0. -/
def countDown (t : Byte) : Byte := if t = 0 then 0 else t - 1

/-- `TimerTick(S)` (60_exceptions.md R116). -/
def State.timerTick (s : State cfg) : State cfg := { s with dt := countDown s.dt, st := countDown s.st }

/-! ## Run state and host inputs (40_engine.md R74 to R77) -/

/-- `Event(r, e)` (40_engine.md R77, its table). -/
def RunState.event : RunState → HostEvent → RunState
  | .running, .quit => .halted
  | .paused, .quit => .halted
  | .halted, .quit => .halted
  | .running, .togglePause => .paused
  | .paused, .togglePause => .running
  | .halted, .togglePause => .halted

/-- The signals of one tick, applied in list order (40_engine.md R74). -/
def RunState.applyEvents : RunState → List HostEvent → RunState
  | r, [] => r
  | r, e :: es => (r.event e).applyEvents es

/-- `KEYS <- keys_in` and the signals applied (40_engine.md R74, its first lines). -/
def State.latch (s : State cfg) (keysIn : Vector Bool Config.nkeys) (eventsIn : List HostEvent) : State cfg :=
  { s with keys := keysIn, run := s.run.applyEvents eventsIn }

/-- What the host supplies to the coming tick. -/
def State.hostInput (s : State cfg) : TickInput := s.inputs.headD TickInput.idle

/-- The script without the coming tick's input. -/
def State.dropInput (s : State cfg) : State cfg := { s with inputs := s.inputs.tail }

/-! ## Outputs (00_scope.md R11, 10_state.md R43) -/

/-- `fb_out`, row-major (00_scope.md R11, 10_state.md R33). -/
def State.fbOut (s : State cfg) : List Bool := (s.fb.toList.map Vector.toList).flatten

/-- `tone_out` (60_exceptions.md R117). -/
def State.toneOut (s : State cfg) : Bool := decide (0 < s.st)

/-- `run_out` (00_scope.md R11). -/
def State.runOut (s : State cfg) : RunState := s.run

/-- `err_out`, as its numeric code (00_scope.md R11, 10_state.md R37). -/
def State.errOut (s : State cfg) : Nat := s.err.code

/-! ## Construction (70_reset_and_hazards.md R124, R125) -/

/-- `construct(rom)` for a configuration: the state after reset with the image written from `ENTRY` on, or the load error. -/
def constructFor (cfg : Config.Params) (rom : List Byte) : Except Fault (State cfg) :=
  if cfg.maxRom < rom.length then .error .romTooLarge
  else .ok { State.init cfg with mem := Memory.writeBytes cfg (State.init cfg).mem cfg.entry rom }

/-- `construct(rom)` of this hardware. -/
def construct (rom : List Byte) : Except Fault State := constructFor Config.reference rom

end Sys2Proof.Machine
end

