-- ==== Sys2Proof/Machine/Operands.lean ====
section
/-! DEFINITION. The operand forms: register numbers, immediates, addresses, and the sprite `DRW` reads
(30_encoding.md R64, 43_display.md R99). -/

namespace Sys2Proof.Machine

open Sys2Proof

variable {cfg : Config.Params}

/-- `zext_16(nnn)`: an absolute address (30_encoding.md R64). -/
def address (nnn : Addr12) : Word := nnn.setWidth 16

/-- `SE`'s condition: the register equals the immediate, as unsigned bytes (41_control_flow.md R93). -/
def State.equalsImm (s : State cfg) (x : Reg) (nn : Byte) : Bool := s.getV x == nn

/-- The sprite's origin column, `V[x] mod FB_W` (43_display.md R99). -/
def State.originX (s : State cfg) (x : Reg) : Nat := (s.getV x).toNat % cfg.fbW

/-- The sprite's origin row, `V[y] mod FB_H` (43_display.md R99). -/
def State.originY (s : State cfg) (y : Reg) : Nat := (s.getV y).toNat % cfg.fbH

/-- The sprite's height, 0 to 15 (30_encoding.md R64). -/
def spriteHeight (n : Nibble) : Nat := n.toNat

/-- The address of sprite row `r`, an unbounded sum (42_register_ops.md R96). -/
def State.spriteAddr (s : State cfg) (r : Nat) : Nat := s.i.toNat + r

/-- Bit `c` of a sprite byte counted from the left, `(b >> (7 - c)) & 1` (43_display.md R99). -/
def spriteBit (b : Byte) (c : Nat) : Bool := b.getLsbD (7 - c)

end Sys2Proof.Machine
end

