-- ==== Sys2Proof/Machine/ControlFlow.lean ====
section
/-! DEFINITION. RET, JP, CALL and SE (41_control_flow.md). Each meaning takes the state BEFORE the cycle, whose `pc` is the
instruction's own address, and runs the rule's pseudocode with `pc` past it (40_engine.md R83). -/

namespace Sys2Proof.Machine

open Sys2Proof

variable {cfg : Config.Params}

/-- R90, its pseudocode: pop one address into `pc`. -/
def retBody (s : State cfg) : Except RuntimeError (State cfg) :=
  match s.pop with
  | .ok (a, t) => .ok (t.setPc a)
  | .error e => .error e

/-- R92, its pseudocode: push `pc`, then jump. -/
def callBody (nnn : Addr12) (s : State cfg) : Except RuntimeError (State cfg) :=
  match s.push s.pc with
  | .ok t => .ok (t.setPc (address nnn))
  | .error e => .error e

/-- RET (R90). -/
def execRet (s : State cfg) : Host.Outcome (State cfg) Fault Refusal := finish s (retBody s.advancePc)

/-- JP addr (R91). -/
def execJp (nnn : Addr12) (s : State cfg) : Host.Outcome (State cfg) Fault Refusal :=
  finish s (.ok (s.advancePc.setPc (address nnn)))

/-- CALL addr (R92). -/
def execCall (nnn : Addr12) (s : State cfg) : Host.Outcome (State cfg) Fault Refusal := finish s (callBody nnn s.advancePc)

/-- SE Vx, byte (R93). -/
def execSeByte (x : Reg) (nn : Byte) (s : State cfg) : Host.Outcome (State cfg) Fault Refusal :=
  finish s (.ok (if s.advancePc.equalsImm x nn then s.advancePc.advancePc else s.advancePc))

end Sys2Proof.Machine
end

