-- ==== Sys2Proof/Machine/Flags.lean ====
section
/-! DEFINITION. The core's only flag, VF as `DRW`'s collision flag (10_state.md R29). -/

namespace Sys2Proof.Machine

open Sys2Proof

variable {cfg : Config.Params}

/-- The flag as the byte VF holds: 1 or 0 (43_display.md R99). -/
def flagByte (f : Bool) : Byte := if f then 1 else 0

/-- `VF <- f`. -/
def State.setFlag (s : State cfg) (f : Bool) : State cfg := s.setV vf (flagByte f)

/-- A sprite bit of 1 landing on a pixel that is on (43_display.md R99). -/
def collides (bit old : Bool) : Bool := bit && old

end Sys2Proof.Machine
end

