-- ==== Sys2Proof/Machine/Display.lean ====
section
/-! DEFINITION. CLS and DRW (43_display.md). -/

namespace Sys2Proof.Machine

open Sys2Proof

variable {cfg : Config.Params}

/-- CLS (R98). -/
def execCls (s : State cfg) : Host.Outcome (State cfg) Fault Refusal := finish s (.ok (s.advancePc.setFb Framebuffer.blank))

/-- What a draw has written so far: the framebuffer and the collision flag. -/
structure Drawing (cfg : Config.Params) where
  fb : Framebuffer cfg
  flag : Bool
  deriving DecidableEq, Repr

/-- One sprite bit composited at column `x` of row `y` (R99, the body of the inner loop). -/
def Drawing.plot (d : Drawing cfg) (y x : Nat) (bit : Bool) : Drawing cfg :=
  { fb := d.fb.setPixel y x (xor (d.fb.pixel y x) bit), flag := d.flag || collides bit (d.fb.pixel y x) }

/-- The inner loop of R99: `k` more columns of row `y` from column `c` of the byte on; the row stops at the right edge. -/
def drawCols (b : Byte) (y x0 : Nat) : Nat → Nat → Drawing cfg → Drawing cfg
  | 0, _, d => d
  | k + 1, c, d =>
    if cfg.fbW ≤ x0 + c then d
    else drawCols b y x0 k (c + 1) (d.plot y (x0 + c) (spriteBit b c))

/-- The outer loop of R99: `k` more rows from row `r` of the sprite on; the sprite stops at the bottom edge, and a row that is
not drawn is not read. -/
def drawRows (m : Memory) (base y0 x0 : Nat) : Nat → Nat → Drawing cfg → Except RuntimeError (Drawing cfg)
  | 0, _, d => .ok d
  | k + 1, r, d =>
    if cfg.fbH ≤ y0 + r then .ok d
    else
      match m.read cfg (base + r) with
      | .error e => .error e
      | .ok b => drawRows m base y0 x0 k (r + 1) (drawCols b (y0 + r) x0 8 0 d)

/-- R99, its pseudocode: the origin is read, the flag cleared, the rows drawn, and VF and the framebuffer written. -/
def drwBody (x y : Reg) (n : Nibble) (s : State cfg) : Except RuntimeError (State cfg) :=
  match drawRows s.mem s.i.toNat (s.originY y) (s.originX x) (spriteHeight n) 0 { fb := s.fb, flag := false } with
  | .ok d => .ok ((s.setFb d.fb).setFlag d.flag)
  | .error e => .error e

/-- DRW Vx, Vy, nibble (R99). -/
def execDrw (x y : Reg) (n : Nibble) (s : State cfg) : Host.Outcome (State cfg) Fault Refusal :=
  finish s (drwBody x y n s.advancePc)

end Sys2Proof.Machine
end

