-- ==== Sys2Proof/Machine/Nop.lean ====
section
/-! DEFINITION. The no-op default, one meaning for each of its nine families (44_nop.md R104). -/

namespace Sys2Proof.Machine

open Sys2Proof

variable {cfg : Config.Params}

/-- R104: nothing but `pc` past the instruction; the twelve bits are ignored. -/
def noEffect (_rest : Addr12) (s : State cfg) : Host.Outcome (State cfg) Fault Refusal := finish s (.ok s.advancePc)

/-- Family 0 but CLS and RET (R103, R104). -/
def execNop0 (rest : Addr12) (s : State cfg) : Host.Outcome (State cfg) Fault Refusal := noEffect rest s

/-- Family 0x4 (R103, R104). -/
def execNop4 (rest : Addr12) (s : State cfg) : Host.Outcome (State cfg) Fault Refusal := noEffect rest s

/-- Family 0x5 (R103, R104). -/
def execNop5 (rest : Addr12) (s : State cfg) : Host.Outcome (State cfg) Fault Refusal := noEffect rest s

/-- Family 0x8 (R103, R104). -/
def execNop8 (rest : Addr12) (s : State cfg) : Host.Outcome (State cfg) Fault Refusal := noEffect rest s

/-- Family 0x9 (R103, R104). -/
def execNop9 (rest : Addr12) (s : State cfg) : Host.Outcome (State cfg) Fault Refusal := noEffect rest s

/-- Family 0xB (R103, R104). -/
def execNopB (rest : Addr12) (s : State cfg) : Host.Outcome (State cfg) Fault Refusal := noEffect rest s

/-- Family 0xC (R103, R104). -/
def execNopC (rest : Addr12) (s : State cfg) : Host.Outcome (State cfg) Fault Refusal := noEffect rest s

/-- Family 0xE (R103, R104). -/
def execNopE (rest : Addr12) (s : State cfg) : Host.Outcome (State cfg) Fault Refusal := noEffect rest s

/-- Family 0xF (R103, R104). -/
def execNopF (rest : Addr12) (s : State cfg) : Host.Outcome (State cfg) Fault Refusal := noEffect rest s

end Sys2Proof.Machine
end

