-- ==== Sys2Proof/Machine/RegisterOps.lean ====
section
/-! DEFINITION. LD Vx, ADD Vx and LD I (42_register_ops.md). -/

namespace Sys2Proof.Machine

open Sys2Proof

variable {cfg : Config.Params}

/-- LD Vx, byte (R94). -/
def execLdByte (x : Reg) (nn : Byte) (s : State cfg) : Host.Outcome (State cfg) Fault Refusal :=
  finish s (.ok (s.advancePc.setV x nn))

/-- ADD Vx, byte (R95): modulo 256, no carry. -/
def execAddByte (x : Reg) (nn : Byte) (s : State cfg) : Host.Outcome (State cfg) Fault Refusal :=
  finish s (.ok (s.advancePc.setV x (s.advancePc.getV x + nn)))

/-- LD I, addr (R97). -/
def execLdI (nnn : Addr12) (s : State cfg) : Host.Outcome (State cfg) Fault Refusal :=
  finish s (.ok (s.advancePc.setI (address nnn)))

end Sys2Proof.Machine
end

