-- ==== Sys2Proof/Machine/Dispatch.lean ====
section
/-! DEFINITION. Execute(ins, S) (40_engine.md R84): one arm per constructor, no wildcard. The state given is the one BEFORE
the cycle: its pc is the instruction's own address (notes/assumptions/10.md). -/

namespace Sys2Proof.Machine

open Sys2Proof

def exec (i : Instr) (s : State) : Host.Outcome State Fault Refusal :=
  match i with
  | .cls => Sys2Proof.Machine.execCls s
  | .ret => Sys2Proof.Machine.execRet s
  | .jp nnn => Sys2Proof.Machine.execJp nnn s
  | .call nnn => Sys2Proof.Machine.execCall nnn s
  | .seByte x nn => Sys2Proof.Machine.execSeByte x nn s
  | .ldByte x nn => Sys2Proof.Machine.execLdByte x nn s
  | .addByte x nn => Sys2Proof.Machine.execAddByte x nn s
  | .ldI nnn => Sys2Proof.Machine.execLdI nnn s
  | .drw x y n => Sys2Proof.Machine.execDrw x y n s
  | .nop0 rest => Sys2Proof.Machine.execNop0 rest s
  | .nop4 rest => Sys2Proof.Machine.execNop4 rest s
  | .nop5 rest => Sys2Proof.Machine.execNop5 rest s
  | .nop8 rest => Sys2Proof.Machine.execNop8 rest s
  | .nop9 rest => Sys2Proof.Machine.execNop9 rest s
  | .nopB rest => Sys2Proof.Machine.execNopB rest s
  | .nopC rest => Sys2Proof.Machine.execNopC rest s
  | .nopE rest => Sys2Proof.Machine.execNopE rest s
  | .nopF rest => Sys2Proof.Machine.execNopF rest s

end Sys2Proof.Machine
end

