-- ==== Sys2Proof/Machine/Engine.lean ====
section
/-! DEFINITION. The fetch, the execute step, the cycle and the tick of any configuration (40_engine.md R74, R81 to R84). -/

namespace Sys2Proof.Machine

open Sys2Proof

variable {cfg : Config.Params}

/-- The fetch (40_engine.md R82): the byte at `pc`, then the byte at `pc + 1` computed without a 16-bit wrap. -/
def State.fetch (s : State cfg) : Except RuntimeError Word :=
  match s.readByte s.pc.toNat with
  | .error e => .error e
  | .ok hi =>
    match s.readByte (s.pc.toNat + 1) with
    | .error e => .error e
    | .ok lo => .ok (wordOfBytes hi lo)

/-- `Execute(ins, S)` (40_engine.md R84) in any configuration: the meanings that `exec` calls in this hardware's. -/
def execute (i : Instr) (s : State cfg) : Host.Outcome (State cfg) Fault Refusal :=
  match i with
  | .cls => execCls s
  | .ret => execRet s
  | .jp nnn => execJp nnn s
  | .call nnn => execCall nnn s
  | .seByte x nn => execSeByte x nn s
  | .ldByte x nn => execLdByte x nn s
  | .addByte x nn => execAddByte x nn s
  | .ldI nnn => execLdI nnn s
  | .drw x y n => execDrw x y n s
  | .nop0 rest => execNop0 rest s
  | .nop4 rest => execNop4 rest s
  | .nop5 rest => execNop5 rest s
  | .nop8 rest => execNop8 rest s
  | .nop9 rest => execNop9 rest s
  | .nopB rest => execNopB rest s
  | .nopC rest => execNopC rest s
  | .nopE rest => execNopE rest s
  | .nopF rest => execNopF rest s

/-- `Cycle(S)` (40_engine.md R81). -/
def cycle (s : State cfg) : Host.Outcome (State cfg) Fault Refusal :=
  match s.fetch with
  | .error e => .next (s.takeError e)
  | .ok w => execute (decodeWith cfg.zeroFamilyMatch w) s

/-- `repeat n times: S <- Cycle(S); if S.RUN = Halted then return S` (40_engine.md R74). -/
def cycles : Nat → State cfg → Host.Outcome (State cfg) Fault Refusal
  | 0, s => .next s
  | n + 1, s =>
    match cycle s with
    | .next t => if t.run = .halted then .next t else cycles n t
    | .fault e => .fault e
    | .refused e => .refused e

/-- The timer tick that follows the cycles, unless an error halted the core (40_engine.md R74, 60_exceptions.md R110). -/
def afterCycles (o : Host.Outcome (State cfg) Fault Refusal) : Host.Outcome (State cfg) Fault Refusal :=
  match o with
  | .next t => if t.run = .halted then .next t else .next t.timerTick
  | .fault e => .fault e
  | .refused e => .refused e

/-- What a tick does once the keys are latched and the signals applied (40_engine.md R74). -/
def runTick (s : State cfg) : Host.Outcome (State cfg) Fault Refusal :=
  match s.run with
  | .halted => .next s
  | .paused => .next s
  | .running => afterCycles (cycles cfg.cyclesPerTick s)

/-- `Tick(S, keys_in, events_in)` (40_engine.md R74). -/
def tick (keysIn : Vector Bool Config.nkeys) (eventsIn : List HostEvent) (s : State cfg) :
    Host.Outcome (State cfg) Fault Refusal :=
  if s.run = .halted then .next s else runTick (s.latch keysIn eventsIn)

/-- A tick with the inputs the script names next. A tick that starts Halted takes none (notes/assumptions/9.md). -/
def scriptedTick (s : State cfg) : Host.Outcome (State cfg) Fault Refusal :=
  if s.run = .halted then .next s else tick s.hostInput.keys s.hostInput.events s.dropInput

/-! ## Placing an instruction for the next step -/

/-- The coming tick executes an instruction: the signals leave the core Running, and both bytes at `pc` exist. -/
def State.willFetch (s : State cfg) : Bool :=
  decide (s.run.applyEvents s.hostInput.events = .running) && decide (s.pc.toNat + 1 < cfg.memSize)

/-- The state itself when its coming tick executes an instruction; else the same state made Running, its next input without
signals, and a `pc` that a fetch can use (notes/assumptions/19.md). -/
def State.readyToFetch (s : State cfg) : State cfg :=
  if s.willFetch then s
  else
    { s with
      run := .running
      inputs := { s.hostInput with events := [] } :: s.inputs.tail
      pc := if s.pc.toNat + 1 < cfg.memSize then s.pc else BitVec.ofNat 16 cfg.entry }

/-- A word stored at `pc`, high byte first (20_memory.md R52). -/
def State.storeWordAtPc (s : State cfg) (w : Word) : State cfg :=
  { s with mem := (s.mem.write cfg s.pc.toNat (highByte w)).write cfg (s.pc.toNat + 1) (lowByte w) }

end Sys2Proof.Machine
end

