-- ==== Sys2Proof/Machine/Step.lean ====
section
/-! DEFINITION. One step of the model: one tick of the host loop (00_scope.md R12, 40_engine.md R74). -/

namespace Sys2Proof.Machine

open Sys2Proof

/-- One tick, with the inputs the script names next. -/
def step (s : State) : Host.Outcome State Fault Refusal := scriptedTick s

/-- The state with an instruction, numbered as spec/opcode_table.json numbers it, where the next step fetches. -/
def State.withFetchWord (s : State) (nbits w : Nat) : State := s.readyToFetch.storeWordAtPc (tableWord nbits w)

end Sys2Proof.Machine
end

