-- ==== Sys2Proof/Machine/Configured.lean ====
section
/-! DEFINITION. A machine for every configuration (00_scope.md R6, 93_implementation_defined.md U7, U12, U13). Under
`REG_RESET = zero` it is the scripted tick; under `unwritten` each cycle first checks that the instruction reads no register that
nothing has written since construction (92_eei_decisions.md D7). -/

namespace Sys2Proof.Machine

open Sys2Proof

variable {cfg : Config.Params}

/-! ## Which registers an instruction reads and writes -/

/-- The general registers an instruction reads (10_state.md R22, its table). -/
def readsV : Instr → List Reg
  | .cls => []
  | .ret => []
  | .jp _ => []
  | .call _ => []
  | .seByte x _ => [x]
  | .ldByte _ _ => []
  | .addByte x _ => [x]
  | .ldI _ => []
  | .drw x y _ => [x, y]
  | .nop0 _ => []
  | .nop4 _ => []
  | .nop5 _ => []
  | .nop8 _ => []
  | .nop9 _ => []
  | .nopB _ => []
  | .nopC _ => []
  | .nopE _ => []
  | .nopF _ => []

/-- The general registers an instruction writes (10_state.md R22, its table). -/
def writesV : Instr → List Reg
  | .cls => []
  | .ret => []
  | .jp _ => []
  | .call _ => []
  | .seByte _ _ => []
  | .ldByte x _ => [x]
  | .addByte x _ => [x]
  | .ldI _ => []
  | .drw _ _ _ => [vf]
  | .nop0 _ => []
  | .nop4 _ => []
  | .nop5 _ => []
  | .nop8 _ => []
  | .nop9 _ => []
  | .nopB _ => []
  | .nopC _ => []
  | .nopE _ => []
  | .nopF _ => []

/-- The instruction reads `I`: a DRW that draws a row (10_state.md R24, 43_display.md R100). -/
def readsI : Instr → Bool
  | .cls => false
  | .ret => false
  | .jp _ => false
  | .call _ => false
  | .seByte _ _ => false
  | .ldByte _ _ => false
  | .addByte _ _ => false
  | .ldI _ => false
  | .drw _ _ n => n != 0
  | .nop0 _ => false
  | .nop4 _ => false
  | .nop5 _ => false
  | .nop8 _ => false
  | .nop9 _ => false
  | .nopB _ => false
  | .nopC _ => false
  | .nopE _ => false
  | .nopF _ => false

/-- The instruction writes `I`: LD I alone (10_state.md R24). -/
def writesI : Instr → Bool
  | .cls => false
  | .ret => false
  | .jp _ => false
  | .call _ => false
  | .seByte _ _ => false
  | .ldByte _ _ => false
  | .addByte _ _ => false
  | .ldI _ => true
  | .drw _ _ _ => false
  | .nop0 _ => false
  | .nop4 _ => false
  | .nop5 _ => false
  | .nop8 _ => false
  | .nop9 _ => false
  | .nopB _ => false
  | .nopC _ => false
  | .nopE _ => false
  | .nopF _ => false

/-! ## `REG_RESET = unwritten` -/

/-- A state, and which of V0 to VF and I some instruction has written since construction. -/
structure Tracked (cfg : Config.Params) where
  state : State cfg
  vWritten : Vector Bool Config.nregs
  iWritten : Bool
  deriving DecidableEq, Repr

/-- Construction writes none of these registers. -/
def Tracked.init (cfg : Config.Params) : Tracked cfg :=
  { state := State.init cfg, vWritten := Vector.replicate _ false, iWritten := false }

/-- `construct(rom)` under `REG_RESET = unwritten`. -/
def Tracked.construct (cfg : Config.Params) (rom : List Byte) : Except Fault (Tracked cfg) :=
  match constructFor cfg rom with
  | .ok s => .ok { Tracked.init cfg with state := s }
  | .error e => .error e

/-- Every register the instruction reads has been written. -/
def Tracked.readable (t : Tracked cfg) (i : Instr) : Bool :=
  (readsV i).all (fun r => t.vWritten[r.val]) && (!readsI i || t.iWritten)

/-- The registers the instruction writes count as written. -/
def Tracked.mark (t : Tracked cfg) (i : Instr) (s : State cfg) : Tracked cfg :=
  { state := s
    vWritten := (writesV i).foldl (fun v r => v.set r.val true) t.vWritten
    iWritten := t.iWritten || writesI i }

/-- A cycle with the check. An instruction that raises an error writes nothing (60_exceptions.md R107). -/
def Tracked.cycle (t : Tracked cfg) : Host.Outcome (Tracked cfg) Fault Refusal :=
  match t.state.fetch with
  | .error e => .next { t with state := t.state.takeError e }
  | .ok w =>
    if t.readable (decodeWith cfg.zeroFamilyMatch w) then
      match execute (decodeWith cfg.zeroFamilyMatch w) t.state with
      | .next s =>
        if s.run = .halted then .next { t with state := s } else .next (t.mark (decodeWith cfg.zeroFamilyMatch w) s)
      | .fault e => .fault e
      | .refused e => .refused e
    else .refused .unwrittenRegister

/-- The cycles of a tick, stopping at the one that halts (40_engine.md R74). -/
def Tracked.cycles : Nat → Tracked cfg → Host.Outcome (Tracked cfg) Fault Refusal
  | 0, t => .next t
  | n + 1, t =>
    match t.cycle with
    | .next u => if u.state.run = .halted then .next u else Tracked.cycles n u
    | .fault e => .fault e
    | .refused e => .refused e

/-- What a tick does once the keys are latched and the signals applied (40_engine.md R74). -/
def Tracked.runTick (t : Tracked cfg) : Host.Outcome (Tracked cfg) Fault Refusal :=
  match t.state.run with
  | .halted => .next t
  | .paused => .next t
  | .running =>
    match Tracked.cycles cfg.cyclesPerTick t with
    | .next u => if u.state.run = .halted then .next u else .next { u with state := u.state.timerTick }
    | .fault e => .fault e
    | .refused e => .refused e

/-- A tick with the inputs the script names next. -/
def Tracked.step (t : Tracked cfg) : Host.Outcome (Tracked cfg) Fault Refusal :=
  if t.state.run = .halted then .next t
  else
    Tracked.runTick
      { t with state := t.state.dropInput.latch t.state.hostInput.keys t.state.hostInput.events }

/-! ## The machine of a configuration -/

/-- The machine of a configuration, by its `REG_RESET`. `Sys2Proof.core` is that of `Config.reference`. -/
def configured (cfg : Config.Params) : Host.Core :=
  match cfg.regReset with
  | .zero => { State := State cfg, Fault := Fault, Refusal := Refusal, step := scriptedTick, reset := State.init cfg }
  | .unwritten => { State := Tracked cfg, Fault := Fault, Refusal := Refusal, step := Tracked.step, reset := Tracked.init cfg }

end Sys2Proof.Machine
end

