-- ==== Sys2Proof/Safety.lean ====
section
/-! DEFINITION. What the statements are made of: what a step may change, what holds in every state a program reaches, and
what a run's end is. -/

namespace Sys2Proof.Machine

open Sys2Proof

variable {cfg : Config.Params}

/-! ## Frames -/

/-- The fields of the state, by name (10_state.md R20, and the model's own `inputs`). -/
inductive Field where
  | mem | v | i | pc | stack | sp | fb | keys | dt | st | run | err | inputs
  deriving DecidableEq, Repr

/-- Two states hold the same in a field. Memory and the general registers are compared through their reads. -/
def State.agreesOn (s t : State cfg) : Field → Prop
  | .mem => ∀ a, t.readByte a = s.readByte a
  | .v => ∀ r, t.getV r = s.getV r
  | .i => t.i = s.i
  | .pc => t.pc = s.pc
  | .stack => t.stack = s.stack
  | .sp => t.sp = s.sp
  | .fb => t.fb = s.fb
  | .keys => t.keys = s.keys
  | .dt => t.dt = s.dt
  | .st => t.st = s.st
  | .run => t.run = s.run
  | .err => t.err = s.err
  | .inputs => t.inputs = s.inputs

/-- Nothing but the named fields differs from `s` to `t`. -/
def State.changesOnly (s t : State cfg) (fields : List Field) : Prop := ∀ f, f ∉ fields → s.agreesOn t f

/-- `t` is `s` with a runtime error taken and nothing else changed (60_exceptions.md R107). -/
def State.haltedWith (s t : State cfg) (e : ErrLatch) : Prop :=
  t.run = .halted ∧ t.err = e ∧ s.changesOnly t [.run, .err]

/-! ## Invariants -/

/-- What every step keeps: memory in its canonical form; `I` at most 0xFFF (10_state.md R24); `pc` at most `(MEM_SIZE - 2) + 4`
(10_state.md R28); every valid return address the address after some CALL (41_control_flow.md R90); an error only in a
halted core (10_state.md R37). -/
structure State.Inv (s : State) : Prop where
  memory : s.mem.wf Config.reference = true
  index : s.i.toNat ≤ 0xFFF
  counter : s.pc.toNat ≤ Config.reference.memSize - 2 + 4
  returns : ∀ (k : Nat) (a : Word), k < s.sp.val → s.stack[k]? = some a → 2 ≤ a.toNat ∧ a.toNat ≤ Config.reference.memSize
  latch : s.err ≠ .none → s.run = .halted

/-- The address `pc` holds, and every return address the stack holds, is even (10_state.md R27). -/
def State.evenAligned (s : State cfg) : Prop :=
  s.pc.toNat % 2 = 0 ∧ ∀ (k : Nat) (a : Word), k < s.sp.val → s.stack[k]? = some a → a.toNat % 2 = 0

/-- The instruction names no odd jump or call target (10_state.md R27). -/
def evenTarget (i : Instr) : Prop :=
  (∀ nnn, i = .jp nnn → nnn.toNat % 2 = 0) ∧ ∀ nnn, i = .call nnn → nnn.toNat % 2 = 0

/-! ## Runs -/

/-- `k` steps, one after another, stopping at the first that answers no next state. -/
def runSteps : Nat → State → Host.Outcome State Fault Refusal
  | 0, s => .next s
  | k + 1, s =>
    match step s with
    | .next t => runSteps k t
    | .fault e => .fault e
    | .refused e => .refused e

/-- The states a program image can lead to: construction, then ticks, the host choosing what it supplies at any point
(70_reset_and_hazards.md R124, R129). -/
inductive Reaches (rom : List Byte) : State → Prop where
  | built {s : State} (h : construct rom = .ok s) : Reaches rom s
  | supplied {s : State} (h : Reaches rom s) (inputs : List TickInput) : Reaches rom { s with inputs := inputs }
  | stepped {s t : State} (h : Reaches rom s) (hst : step s = .next t) : Reaches rom t

/-- The state in which the coming tick's cycle starts: the keys latched and the signals applied (40_engine.md R74). -/
def State.preCycle (s : State cfg) : State cfg := s.dropInput.latch s.hostInput.keys s.hostInput.events

/-- A run has ended (40_engine.md R87). -/
def State.ended (s : State cfg) : Prop := s.run = .halted

/-- A safe run's state: no runtime error has occurred (10_state.md R37). -/
def State.errorFree (s : State cfg) : Prop := s.err = .none

/-- Spinning (40_engine.md R87): Running, with the word `0x1NNN` at `pc` and `NNN = pc`. -/
def State.spinning (s : State cfg) : Prop :=
  s.run = .running ∧ ∃ nnn : Addr12, s.fetch = .ok (0x1#4 ++ nnn) ∧ nnn.toNat = s.pc.toNat

/-! ## The sprite, as 43_display.md R100 and R101 name its parts -/

/-- `R = min(n, FB_H - y0)`: the rows DRW draws. -/
def State.rowsDrawn (s : State cfg) (y : Reg) (n : Nibble) : Nat := min n.toNat (cfg.fbH - (s.getV y).toNat % cfg.fbH)

/-- `C = min(8, FB_W - x0)`: the pixels composited in each drawn row. -/
def State.colsDrawn (s : State cfg) (x : Reg) : Nat := min 8 (cfg.fbW - (s.getV x).toNat % cfg.fbW)

/-- `s(r, c) = (MEM[I + r] >> (7 - c)) & 1`. -/
def State.spriteAt (s : State cfg) (r c : Nat) : Bool := decide ((s.byteAt (s.i.toNat + r)).toNat / 2 ^ (7 - c) % 2 = 1)

/-- Every row DRW draws lies in memory. -/
def State.spriteInMemory (s : State cfg) (y : Reg) (n : Nibble) : Prop :=
  ∀ r, r < s.rowsDrawn y n → s.i.toNat + r < cfg.memSize

end Sys2Proof.Machine
end

