-- ==== Sys2Proof/Certificates/Slice0/Obligations.lean ====
section
/-! DEFINITION. The statements. Each docstring names the rule of spec/ it formalises. Where one rests on a choice that the
spec marks as its own ("decision", "derived") or that the model made, it says so. -/

open Sys2Proof Sys2Proof.Machine

/-! ## Encoding -/

/-- 30_encoding.md R71: every field is the bits the rule names, for every word and both readings of the zero family, and
decoding is injective because `opcode` keeps the whole word; the tag is a function of the word and the parameter alone. -/
def Obligations.DecodedFieldsAreTheWordsBits : Prop :=
  ∀ (m : Config.ZeroFamilyMatch) (w : Word),
    (decodeRecord m w).nnn.toNat = w.toNat &&& 0x0FFF ∧
    (decodeRecord m w).nn.toNat = w.toNat &&& 0x00FF ∧
    (decodeRecord m w).n.toNat = w.toNat &&& 0x000F ∧
    (decodeRecord m w).family.toNat = (w.toNat >>> 12) &&& 0xF ∧
    (decodeRecord m w).x.toNat = (w.toNat >>> 8) &&& 0xF ∧
    (decodeRecord m w).y.toNat = (w.toNat >>> 4) &&& 0xF ∧
    (decodeRecord m w).opcode = w ∧ (decodeRecord m w).kind = kindOf m w ∧
    (∀ w' : Word, decodeRecord m w = decodeRecord m w' → w = w')

/-- 30_encoding.md R66, R67 and 44_nop.md R103: which tag each of the 65536 words has, under both readings of the zero
family. That the zero family is read exactly is the spec's own decision D5 (notes/assumptions/14.md). -/
def Obligations.KindFollowsTheOpcodeMap : Prop :=
  ∀ w : Word,
    (kindOf .exact w = .cls ↔ w.toNat = 0x00E0) ∧
    (kindOf .exact w = .ret ↔ w.toNat = 0x00EE) ∧
    (kindOf .lowByte w = .cls ↔ w.toNat / 4096 = 0 ∧ w.toNat % 256 = 0xE0) ∧
    (kindOf .lowByte w = .ret ↔ w.toNat / 4096 = 0 ∧ w.toNat % 256 = 0xEE) ∧
    ∀ m : Config.ZeroFamilyMatch,
      (kindOf m w = .jp ↔ w.toNat / 4096 = 1) ∧
      (kindOf m w = .call ↔ w.toNat / 4096 = 2) ∧
      (kindOf m w = .seByte ↔ w.toNat / 4096 = 3) ∧
      (kindOf m w = .ldByte ↔ w.toNat / 4096 = 6) ∧
      (kindOf m w = .addByte ↔ w.toNat / 4096 = 7) ∧
      (kindOf m w = .ldI ↔ w.toNat / 4096 = 0xA) ∧
      (kindOf m w = .drw ↔ w.toNat / 4096 = 0xD) ∧
      (kindOf m w = .nop ↔ w.toNat / 4096 ∈ [4, 5, 8, 9, 0xB, 0xC, 0xE, 0xF] ∨
        (w.toNat / 4096 = 0 ∧ kindOf m w ≠ .cls ∧ kindOf m w ≠ .ret))

/-- 30_encoding.md R68: the two readings of the zero family differ on the words `0x0XE0` and `0x0XEE` with X in 1 to 15, and
on no other; this hardware runs those words as no-ops. The choice is the spec's own decision D5 (notes/assumptions/14.md). -/
def Obligations.ZeroFamilyReadingsDiffer : Prop :=
  ∀ w : Word,
    (kindOf .exact w ≠ kindOf .lowByte w ↔
      w.toNat / 4096 = 0 ∧ 1 ≤ w.toNat / 256 ∧ (w.toNat % 256 = 0xE0 ∨ w.toNat % 256 = 0xEE)) ∧
    (kindOf .exact w ≠ kindOf .lowByte w → ∃ rest : Addr12, decode w = .nop0 rest)

/-- The instruction read from a word has the word's tag and, encoded again, is the word: no bit of an opcode is lost
(30_encoding.md R65, R66, R71). -/
def Obligations.EncodingADecodedWordGivesItBack : Prop :=
  ∀ w : Word, encode (decode w) = w ∧ (decode w).wellFormed = true ∧ (decode w).kind = kindOf .exact w

/-- Decoding the word of a well-formed instruction gives the instruction, every operand at every value, under both readings
of the zero family (30_encoding.md R63 to R68). -/
def Obligations.DecodingAnEncodedInstructionGivesItBack : Prop :=
  ∀ (m : Config.ZeroFamilyMatch) (i : Instr), i.wellFormedFor m = true → decodeWith m (encode i) = i

/-- 30_encoding.md R72 and R73: every word's own line assembles back to the word's two bytes, under both readings of the zero
family; a number out of its operand's range is refused, and so is a `NOP w` of a word that is no NOP. The syntax is the
spec's own decision D15 (notes/assumptions/24.md, 28.md). -/
def Obligations.AssemblingAWordsLineGivesItBack : Prop :=
  (∀ (m : Config.ZeroFamilyMatch) (w : Word), assemble m (lineOf m w) = some [highByte w, lowByte w]) ∧
  (∀ (m : Config.ZeroFamilyMatch) (addr : Nat), 0xFFF < addr →
    assemble m (.jp addr) = none ∧ assemble m (.call addr) = none ∧ assemble m (.ldI addr) = none) ∧
  (∀ (m : Config.ZeroFamilyMatch) (x : Reg) (byte : Nat), 0xFF < byte →
    assemble m (.seByte x byte) = none ∧ assemble m (.ldByte x byte) = none ∧ assemble m (.addByte x byte) = none) ∧
  (∀ (m : Config.ZeroFamilyMatch) (x y : Reg) (nibble : Nat), 0xF < nibble → assemble m (.drw x y nibble) = none) ∧
  (∀ (m : Config.ZeroFamilyMatch) (w : Word), kindOf m w ≠ .nop → assemble m (.nop w.toNat) = none)

/-- Words of 95_test_vectors.md, table T1, one of each row of the opcode table, numbered as that table numbers them. That
0x01E0 is `nop0` and not `CLS` is the spec's own decision D5 (notes/assumptions/14.md). -/
def Obligations.SampleWordsDecode : Prop :=
  decodeTableWord 16 0x00E0 = some .cls ∧ decodeTableWord 16 0x00EE = some .ret ∧
  decodeTableWord 16 0x10EE = some (.jp 0x0EE) ∧ decodeTableWord 16 0x2300 = some (.call 0x300) ∧
  decodeTableWord 16 0x3FFF = some (.seByte 15 0xFF) ∧ decodeTableWord 16 0x6A05 = some (.ldByte 10 0x05) ∧
  decodeTableWord 16 0x7302 = some (.addByte 3 0x02) ∧ decodeTableWord 16 0xA000 = some (.ldI 0x000) ∧
  decodeTableWord 16 0xD7A3 = some (.drw 7 10 3) ∧ decodeTableWord 16 0x01E0 = some (.nop0 0x1E0) ∧
  decodeTableWord 16 0x4A12 = some (.nop4 0xA12) ∧ decodeTableWord 16 0x5120 = some (.nop5 0x120) ∧
  decodeTableWord 16 0x8123 = some (.nop8 0x123) ∧ decodeTableWord 16 0x9120 = some (.nop9 0x120) ∧
  decodeTableWord 16 0xB123 = some (.nopB 0x123) ∧ decodeTableWord 16 0xC0FF = some (.nopC 0x0FF) ∧
  decodeTableWord 16 0xE19E = some (.nopE 0x19E) ∧ decodeTableWord 16 0xF00A = some (.nopF 0x00A)

/-- 30_encoding.md R62, R69 and 20_memory.md R52: any two bytes are an instruction, the first one bits 15:8, and what
follows them is left; fewer than two are refused by name. -/
def Obligations.EveryBytePairIsAnInstruction : Prop :=
  (∀ (hi lo : Byte) (rest : List Byte), ∃ i : Instr,
    decodeBytes (hi :: lo :: rest) = .ok (i, rest) ∧ (encode i).toNat = hi.toNat * 256 + lo.toNat ∧
      encodeBytes i = [hi, lo]) ∧
  decodeBytes [] = .error .truncated ∧ ∀ b : Byte, decodeBytes [b] = .error .truncated

/-! ## Memory and construction -/

/-- 20_memory.md R48, in every configuration: a byte below `MEM_SIZE` is read; at or above it the read raises `MemoryBounds` with the address. The
raise is the spec's own decision D3 (notes/assumptions/12.md). -/
def Obligations.MemoryReadIsBounded : Prop :=
  ∀ (cfg : Config.Params) (s : State cfg) (a : Nat),
    (a < cfg.memSize → s.readByte a = .ok (s.byteAt a)) ∧ (cfg.memSize ≤ a → s.readByte a = .error (.memoryBounds a))

/-- 20_memory.md R50, `MemWrite`, in every configuration: the byte written is read back, every other byte is as it was, and the canonical form, the
model's own representation (notes/assumptions/2.md), is kept. -/
def Obligations.MemoryWriteWritesOneByte : Prop :=
  ∀ (cfg : Config.Params) (m : Memory) (a : Nat) (b : Byte), m.wf cfg = true → a < cfg.memSize →
    (m.write cfg a b).wf cfg = true ∧ (m.write cfg a b).byteAt cfg a = b ∧
    ∀ c, c ≠ a → (m.write cfg a b).byteAt cfg c = m.byteAt cfg c

/-- Memories in the canonical form, the model's own representation (notes/assumptions/2.md), that read the same everywhere
below `MEM_SIZE` are the same data, in every configuration. -/
def Obligations.EqualReadsMeanEqualMemories : Prop :=
  ∀ (cfg : Config.Params) (m m' : Memory), m.wf cfg = true → m'.wf cfg = true →
    (∀ a, a < cfg.memSize → m.byteAt cfg a = m'.byteAt cfg a) → m = m'

/-- 70_reset_and_hazards.md R124 and 10_state.md R42: what construction leaves in every piece of state but the stack slots,
which the spec leaves unspecified. The zeros of V and I, the blank screen, the keys and ERR are the spec's own decisions D7,
D8, D21 and D10 (notes/assumptions/3.md, 4.md, 6.md, 11.md). -/
def Obligations.ConstructionGivesTheResetTable : Prop :=
  ∀ rom : List Byte, rom.length ≤ 3584 →
    ∃ s : State, construct rom = .ok s ∧
      (∀ (k : Nat) (b : Byte), rom[k]? = some b → s.readByte (0x200 + k) = .ok b) ∧
      (∀ (k : Nat) (b : Byte), Config.reference.fontData[k]? = some b →
        s.readByte (Config.reference.fontBase + k) = .ok b) ∧
      (∀ a, a < 4096 → ¬ (0x200 ≤ a ∧ a < 0x200 + rom.length) →
        ¬ (Config.reference.fontBase ≤ a ∧ a < Config.reference.fontBase + Config.reference.fontData.length) →
        s.readByte a = .ok 0) ∧
      (∀ r : Reg, s.getV r = 0) ∧ s.i.toNat = 0 ∧ s.pc.toNat = 0x200 ∧ s.sp.val = 0 ∧
      (∀ y x, s.fb.pixel y x = false) ∧ (∀ k, k < 16 → s.keys[k]? = some false) ∧
      s.dt.toNat = 0 ∧ s.st.toNat = 0 ∧ s.run = .running ∧ s.err = .none

/-- 70_reset_and_hazards.md section 1: construction fails with `RomTooLarge` exactly when the image is longer than
`MEM_SIZE - ENTRY`, 3584 bytes; a 3584-byte image is accepted and a 3585-byte one refused. The failure is R125's; that the
empty image is among those accepted is the spec's own decision D20 (notes/assumptions/26.md, DESIGN CHOICE). -/
def Obligations.ConstructionRefusesALongImage : Prop :=
  ∀ rom : List Byte,
    (3584 < rom.length → construct rom = .error .romTooLarge) ∧
    (rom.length ≤ 3584 → ∃ s : State, construct rom = .ok s)

/-- 70_reset_and_hazards.md R126, an empty image, whatever keys the host supplies and with no signal: 1792 no-ops up to the
end of memory, and on tick 1793 `MemoryBounds`. That an empty image is accepted is the spec's own decision D20
(notes/assumptions/26.md). -/
def Obligations.EmptyImageRunsNoOpsToTheEnd : Prop :=
  construct [] = .ok State.reset ∧
  ∀ ins : List TickInput, ins.length = 1793 → (∀ inp ∈ ins, inp.events = []) →
    (∀ k, k ≤ 1792 → ∃ t : State, runSteps k { State.reset with inputs := ins } = .next t ∧
      t.pc.toNat = 0x200 + 2 * k ∧ t.run = .running ∧ State.reset.changesOnly t [.pc, .keys, .inputs]) ∧
    ∃ t : State, runSteps 1793 { State.reset with inputs := ins } = .next t ∧
      t.pc.toNat = 0x1000 ∧ t.run = .halted ∧ t.err = .memoryBounds

/-! ## Fetch and cycle -/

/-- 40_engine.md R82 and 20_memory.md R52: the fetch raises `MemoryBounds` exactly when `pc >= MEM_SIZE - 1`, for address
`pc` or for `pc + 1`; else it is the two bytes, the one at the lower address in bits 15:8, at an odd `pc` too. The raise is
the spec's own decision D3, the odd `pc` its D2 (notes/assumptions/12.md, 13.md). -/
def Obligations.FetchIsBigEndianAndBounded : Prop :=
  ∀ s : State,
    (4096 ≤ s.pc.toNat → s.fetch = .error (.memoryBounds s.pc.toNat)) ∧
    (s.pc.toNat = 4095 → s.fetch = .error (.memoryBounds 4096)) ∧
    (s.pc.toNat < 4095 → ∃ w hi lo, s.fetch = .ok w ∧ s.readByte s.pc.toNat = .ok hi ∧
      s.readByte (s.pc.toNat + 1) = .ok lo ∧ w.toNat = hi.toNat * 256 + lo.toNat)

/-- A step is the tick of 40_engine.md R74 with the script's next input, which it takes from the script; the script is the
model's own (notes/assumptions/7.md). -/
def Obligations.StepIsTheTickOfTheNextInput : Prop :=
  ∀ (s : State) (inp : TickInput) (rest : List TickInput), s.inputs = inp :: rest → s.run ≠ .halted →
    step s = tick inp.keys inp.events { s with inputs := rest }

/-- A step runs the decoded instruction (40_engine.md R74, R78, R81): with the keys latched, the signals applied and the core
Running, when the two bytes at `pc` decode to `i`, the step is `exec i` and then, unless that halted the core, one timer
step. That a runtime error skips the timer step is the spec's own decision D10 (notes/assumptions/11.md). The list of inputs is
the model's own (notes/assumptions/7.md). -/
def Obligations.StepRunsTheDecodedInstruction : Prop :=
  ∀ (s p t : State) (inp : TickInput) (rest : List TickInput) (hi lo : Byte) (i : Instr),
    s.inputs = inp :: rest → s.run ≠ .halted →
    p = { s with inputs := rest, keys := inp.keys, run := s.run.applyEvents inp.events } → p.run = .running →
    p.readByte p.pc.toNat = .ok hi → p.readByte (p.pc.toNat + 1) = .ok lo →
    decodeBytes [hi, lo] = .ok (i, []) → exec i p = .next t →
    step s = .next (if t.run = .halted then t else t.timerTick)

/-- A fetch that fails halts the core with `MemoryBounds`: the state in which the cycle started, its keys latched and its
signals applied, with RUN and ERR changed and no timer step (40_engine.md R82, 60_exceptions.md R107). The kept state is the
spec's own decision D10 (notes/assumptions/11.md). -/
def Obligations.FailedFetchHaltsTheCore : Prop :=
  ∀ (s : State) (ks : Vector Bool 16) (es : List HostEvent),
    s.run ≠ .halted → s.run.applyEvents es = .running → 4095 ≤ s.pc.toNat →
    tick ks es s = .next { s with keys := ks, run := .halted, err := .memoryBounds }

/-- 40_engine.md R85: a cycle has exactly one of two outcomes, a state with RUN and ERR as they were, or a runtime error
taken; it always has one, in every configuration. -/
def Obligations.CycleEndsInAStateOrOneError : Prop :=
  ∀ (cfg : Config.Params) (s : State cfg), ∃ t : State cfg, cycle s = .next t ∧
    ((t.run = s.run ∧ t.err = s.err) ∨ ∃ e : RuntimeError, t = s.takeError e)

/-- No step faults or refuses: every state has a next one (30_encoding.md R69: no illegal encoding; 60_exceptions.md R107: an
error is a next state, the spec's own decision D10, notes/assumptions/11.md). -/
def Obligations.StepAlwaysAnswersNext : Prop :=
  ∀ s : State, ∃ t : State, step s = .next t

/-! ## Control flow -/

/-- 41_control_flow.md R91, JP: its words are those of match `0x1000` under mask `0xF000`; `pc` is the 12-bit address, whatever
it is, and nothing else changes; a jump to its own address repeats itself. -/
def Obligations.JpSetsThePc : Prop :=
  (∀ w : Word, w.toNat &&& 0xF000 = 0x1000 → decode w = .jp (fieldNNN w) ∧ (fieldNNN w).toNat = w.toNat &&& 0x0FFF) ∧
  (∀ (nnn : Addr12) (s : State), ∃ t : State, exec (.jp nnn) s = .next t ∧
    t.pc.toNat = nnn.toNat ∧ s.changesOnly t [.pc]) ∧
  ∀ (nnn : Addr12) (s : State), s.fetch = .ok (encode (.jp nnn)) → nnn.toNat = s.pc.toNat →
    cycle s = .next s

/-- 41_control_flow.md R92, CALL: below a full stack, the address after the instruction is pushed, SP counts one more, `pc`
is the 12-bit address and nothing else changes; on a full stack `StackOverflow`, and nothing is written. That the halted
state is the one before the cycle is the spec's own decision D10 (notes/assumptions/11.md). -/
def Obligations.CallPushesTheReturnAddress : Prop :=
  ∀ (nnn : Addr12) (s : State),
    (s.sp.val < 12 → ∃ t : State, exec (.call nnn) s = .next t ∧ t.pc.toNat = nnn.toNat ∧ t.sp.val = s.sp.val + 1 ∧
      t.stack[s.sp.val]? = some (s.pc + 2) ∧ (∀ k, k ≠ s.sp.val → t.stack[k]? = s.stack[k]?) ∧
      s.changesOnly t [.pc, .sp, .stack]) ∧
    (s.sp.val = 12 → ∃ t : State, exec (.call nnn) s = .next t ∧ s.haltedWith t .stackOverflow)

/-- 41_control_flow.md R90, RET: with an entry on the stack, `pc` is the top one, SP counts one less and nothing else
changes; on an empty stack `StackUnderflow`, and nothing is written. That the halted state is the one before the cycle is the
spec's own decision D10 (notes/assumptions/11.md). -/
def Obligations.RetPopsTheReturnAddress : Prop :=
  ∀ s : State,
    (0 < s.sp.val → ∃ t : State, exec .ret s = .next t ∧ t.sp.val + 1 = s.sp.val ∧
      s.stack[t.sp.val]? = some t.pc ∧ s.changesOnly t [.pc, .sp]) ∧
    (s.sp.val = 0 → ∃ t : State, exec .ret s = .next t ∧ s.haltedWith t .stackUnderflow)

/-- 41_control_flow.md R93, SE: `pc` past one more instruction when the register equals the immediate, VF read like any
other; else past this one; nothing else changes. -/
def Obligations.SeSkipsOnEquality : Prop :=
  ∀ (x : Reg) (nn : Byte) (s : State), ∃ t : State, exec (.seByte x nn) s = .next t ∧
    ((s.getV x).toNat = nn.toNat → t.pc = s.pc + 4) ∧ ((s.getV x).toNat ≠ nn.toNat → t.pc = s.pc + 2) ∧
    s.changesOnly t [.pc]

/-- 41_control_flow.md R90 and R92 together: a CALL and then a RET at its target come back to the instruction after the CALL,
with SP and every valid entry as they were. -/
def Obligations.CallThenRetComesBack : Prop :=
  ∀ (nnn : Addr12) (s : State), s.sp.val < 12 → ∃ t u : State,
    exec (.call nnn) s = .next t ∧ exec .ret t = .next u ∧ u.pc = s.pc + 2 ∧ u.sp = s.sp ∧
    (∀ k, k < s.sp.val → u.stack[k]? = s.stack[k]?) ∧ s.changesOnly u [.pc, .stack]

/-- 10_state.md R26, the whole table: where each instruction leaves `pc`, from the address it was fetched at. The row of an
instruction that raises an error rests on the spec's own decision D10 (notes/assumptions/11.md). -/
def Obligations.PcAfterEachInstruction : Prop :=
  ∀ (i : Instr) (s t : State), s.run = .running → exec i s = .next t →
    (t.run = .halted → t.pc = s.pc) ∧
    (t.run = .running →
      match i with
      | .jp nnn => t.pc = nnn.setWidth 16
      | .call nnn => t.pc = nnn.setWidth 16
      | .ret => s.stack[s.sp.val - 1]? = some t.pc
      | .seByte x nn => t.pc = if s.getV x = nn then s.pc + 4 else s.pc + 2
      | .cls => t.pc = s.pc + 2
      | .ldByte _ _ => t.pc = s.pc + 2
      | .addByte _ _ => t.pc = s.pc + 2
      | .ldI _ => t.pc = s.pc + 2
      | .drw _ _ _ => t.pc = s.pc + 2
      | .nop0 _ => t.pc = s.pc + 2
      | .nop4 _ => t.pc = s.pc + 2
      | .nop5 _ => t.pc = s.pc + 2
      | .nop8 _ => t.pc = s.pc + 2
      | .nop9 _ => t.pc = s.pc + 2
      | .nopB _ => t.pc = s.pc + 2
      | .nopC _ => t.pc = s.pc + 2
      | .nopE _ => t.pc = s.pc + 2
      | .nopF _ => t.pc = s.pc + 2)

/-! ## Register operations -/

/-- 42_register_ops.md R94, LD Vx: its words are those of match `0x6000` under mask `0xF000`; the register holds the immediate,
VF like any other, `pc` is past the instruction and nothing else changes. -/
def Obligations.LdByteLoadsTheImmediate : Prop :=
  (∀ w : Word, w.toNat &&& 0xF000 = 0x6000 → ∃ (x : Reg) (nn : Byte), decode w = .ldByte x nn ∧
    x.val = (w.toNat >>> 8) &&& 0xF ∧ nn.toNat = w.toNat &&& 0xFF) ∧
  ∀ (x : Reg) (nn : Byte) (s : State), ∃ t : State, exec (.ldByte x nn) s = .next t ∧
    t.getV x = nn ∧ (∀ q, q ≠ x → t.getV q = s.getV q) ∧ t.pc = s.pc + 2 ∧ s.changesOnly t [.v, .pc]

/-- 42_register_ops.md R95, ADD Vx: its words are those of match `0x7000` under mask `0xF000`; the sum modulo 256, no register
written but the destination (so VF takes no carry), `pc` past the instruction and nothing else changed. -/
def Obligations.AddByteAddsModulo256 : Prop :=
  (∀ w : Word, w.toNat &&& 0xF000 = 0x7000 → ∃ (x : Reg) (nn : Byte), decode w = .addByte x nn ∧
    x.val = (w.toNat >>> 8) &&& 0xF ∧ nn.toNat = w.toNat &&& 0xFF) ∧
  ∀ (x : Reg) (nn : Byte) (s : State), ∃ t : State, exec (.addByte x nn) s = .next t ∧
    (t.getV x).toNat = ((s.getV x).toNat + nn.toNat) % 256 ∧ (∀ q, q ≠ x → t.getV q = s.getV q) ∧
    t.pc = s.pc + 2 ∧ s.changesOnly t [.v, .pc]

/-- 42_register_ops.md R97, LD I: I is the 12-bit address with bits 15:12 zero, `pc` past the instruction and nothing else
changed. -/
def Obligations.LdILoadsTheAddress : Prop :=
  ∀ (nnn : Addr12) (s : State), ∃ t : State, exec (.ldI nnn) s = .next t ∧
    t.i.toNat = nnn.toNat ∧ t.pc = s.pc + 2 ∧ s.changesOnly t [.i, .pc]

/-! ## Display and no-op -/

/-- 43_display.md R98, CLS: its one word is `0x00E0`, and under the low-byte reading every `0x0XE0`; every pixel off, `pc` past
the instruction and nothing else changed. -/
def Obligations.ClsClearsEveryPixel : Prop :=
  (∀ w : Word, decodeWith .exact w = .cls ↔ w.toNat = 0x00E0) ∧
  (∀ w : Word, decodeWith .lowByte w = .cls ↔ w.toNat &&& 0xF0FF = 0x00E0) ∧
  ∀ s : State, ∃ t : State, exec .cls s = .next t ∧
    (∀ y x, y < 32 → x < 64 → t.fb.pixel y x = false) ∧ t.pc = s.pc + 2 ∧ s.changesOnly t [.fb, .pc]

/-- 44_nop.md R104, each of the nine no-op families: `pc` past the instruction and nothing else changed. -/
def Obligations.NopOnlyAdvancesThePc : Prop :=
  ∀ (rest : Addr12) (s : State) (i : Instr),
    i ∈ [.nop0 rest, .nop4 rest, .nop5 rest, .nop8 rest, .nop9 rest, .nopB rest, .nopC rest, .nopE rest, .nopF rest] →
    ∃ t : State, exec i s = .next t ∧ t.pc = s.pc + 2 ∧ s.changesOnly t [.pc]

/-- 43_display.md R101, DRW in closed form, when every row drawn lies in memory: each drawn pixel is the old one XOR its
sprite bit, no other pixel changes, VF is 1 exactly when some drawn bit of 1 met a pixel that was on and 0 otherwise, no
other register changes, `pc` is past the instruction and nothing else changes; VF as a coordinate register too. The origin
is read before VF is cleared by the spec's own decision D12 (notes/assumptions/15.md). -/
def Obligations.DrwComposesTheSprite : Prop :=
  ∀ (x y : Reg) (n : Nibble) (s : State), s.spriteInMemory y n →
    ∃ t : State, exec (.drw x y n) s = .next t ∧
      (∀ r c, r < s.rowsDrawn y n → c < s.colsDrawn x →
        t.fb.pixel ((s.getV y).toNat % 32 + r) ((s.getV x).toNat % 64 + c) =
          xor (s.fb.pixel ((s.getV y).toNat % 32 + r) ((s.getV x).toNat % 64 + c)) (s.spriteAt r c)) ∧
      (∀ py px, (∀ r c, r < s.rowsDrawn y n → c < s.colsDrawn x →
          ¬ (py = (s.getV y).toNat % 32 + r ∧ px = (s.getV x).toNat % 64 + c)) →
        t.fb.pixel py px = s.fb.pixel py px) ∧
      ((∃ r c, r < s.rowsDrawn y n ∧ c < s.colsDrawn x ∧ s.spriteAt r c = true ∧
        s.fb.pixel ((s.getV y).toNat % 32 + r) ((s.getV x).toNat % 64 + c) = true) → t.getV 15 = 1) ∧
      ((¬ ∃ r c, r < s.rowsDrawn y n ∧ c < s.colsDrawn x ∧ s.spriteAt r c = true ∧
        s.fb.pixel ((s.getV y).toNat % 32 + r) ((s.getV x).toNat % 64 + c) = true) → t.getV 15 = 0) ∧
      (∀ q, q ≠ 15 → t.getV q = s.getV q) ∧ t.pc = s.pc + 2 ∧ s.changesOnly t [.fb, .v, .pc]

/-- 43_display.md R99 and 60_exceptions.md R108: when a row that is drawn lies at or above `MEM_SIZE`, DRW raises
`MemoryBounds` for the first such row, and no pixel and no register is written. All or nothing is the spec's own decision
D13, the raise its D3 (notes/assumptions/12.md, 15.md). -/
def Obligations.DrwOutsideMemoryHaltsTheCore : Prop :=
  ∀ (x y : Reg) (n : Nibble) (r : Nat) (s : State), r < s.rowsDrawn y n → 4096 ≤ s.i.toNat + r →
    (∀ q, q < r → s.i.toNat + q < 4096) →
    drwBody x y n s.advancePc = .error (.memoryBounds (s.i.toNat + r)) ∧
    ∃ t : State, exec (.drw x y n) s = .next t ∧ s.haltedWith t .memoryBounds

/-- 43_display.md R100: the bytes DRW reads are those of the rows it draws: another memory that holds the same there gives
the same result. -/
def Obligations.DrwReadsOnlyItsDrawnRows : Prop :=
  ∀ (x y : Reg) (n : Nibble) (s t : State) (m : Memory),
    (∀ r, r < s.rowsDrawn y n → m.byteAt Config.reference (s.i.toNat + r) = s.byteAt (s.i.toNat + r)) →
    exec (.drw x y n) s = .next t → exec (.drw x y n) { s with mem := m } = .next { t with mem := m }

/-- 43_display.md R102: the same sprite drawn twice, VF being neither coordinate register, restores every pixel. The second
draw's VF is 1 exactly when some sprite bit of 1 fell on a pixel that was off before the first draw: that is what R99 and
R101 give. R102's own words ("exactly when the first draw composited at least one sprite bit equal to 1") fail exactly when a
bit of 1 was drawn and every one met a pixel that was on (notes/assumptions/27.md); so they hold wherever the first draw's VF
is 0. With VF as a coordinate register, the second draw's origin in that coordinate is the first draw's flag, and the round
trip can fail: these clauses rest on the origin being read before VF is cleared, the spec's own decision D12
(notes/assumptions/15.md). -/
def Obligations.DrawingTwiceRestoresTheScreen : Prop :=
  (∀ (x y : Reg) (n : Nibble) (s : State), x ≠ 15 → y ≠ 15 → s.spriteInMemory y n →
    ∃ t u : State, exec (.drw x y n) s = .next t ∧ exec (.drw x y n) t = .next u ∧
      (∀ py px, u.fb.pixel py px = s.fb.pixel py px) ∧
      (u.getV 15 = 1 ↔ ∃ r c, r < s.rowsDrawn y n ∧ c < s.colsDrawn x ∧ s.spriteAt r c = true ∧
        s.fb.pixel ((s.getV y).toNat % 32 + r) ((s.getV x).toNat % 64 + c) = false) ∧
      (t.getV 15 = 0 → (u.getV 15 = 1 ↔ ∃ r c, r < s.rowsDrawn y n ∧ c < s.colsDrawn x ∧ s.spriteAt r c = true)) ∧
      (¬(u.getV 15 = 1 ↔ ∃ r c, r < s.rowsDrawn y n ∧ c < s.colsDrawn x ∧ s.spriteAt r c = true) ↔
        (∃ r c, r < s.rowsDrawn y n ∧ c < s.colsDrawn x ∧ s.spriteAt r c = true) ∧
        ∀ r c, r < s.rowsDrawn y n → c < s.colsDrawn x → s.spriteAt r c = true →
          s.fb.pixel ((s.getV y).toNat % 32 + r) ((s.getV x).toNat % 64 + c) = true)) ∧
  (∀ (q : Reg) (n : Nibble) (s t : State),
    (s.spriteInMemory q n → exec (.drw 15 q n) s = .next t → t.originX 15 = (t.getV 15).toNat ∧ (t.getV 15).toNat ≤ 1) ∧
    (s.spriteInMemory 15 n → exec (.drw q 15 n) s = .next t → t.originY 15 = (t.getV 15).toNat ∧ (t.getV 15).toNat ≤ 1)) ∧
  (∃ s t u : State, s.spriteInMemory 0 1 ∧ exec (.drw 15 0 1) s = .next t ∧ exec (.drw 15 0 1) t = .next u ∧ u.fb ≠ s.fb) ∧
  ∃ s t u : State, s.spriteInMemory 15 1 ∧ exec (.drw 0 15 1) s = .next t ∧ exec (.drw 0 15 1) t = .next u ∧ u.fb ≠ s.fb

/-! ## The tick, the run state and the timers -/

/-- 40_engine.md R75: `Quit` leads to Halted from any run state; a tick whose signals contain it latches the keys and halts,
and executes no instruction and no timer step: nothing else changes. -/
def Obligations.QuitHaltsWithoutACycle : Prop :=
  (∀ r : RunState, r.event .quit = .halted) ∧
  ∀ (s : State) (ks : Vector Bool 16) (es : List HostEvent), s.run ≠ .halted → .quit ∈ es →
    ∃ t : State, tick ks es s = .next t ∧ t.run = .halted ∧ t.keys = ks ∧ s.changesOnly t [.run, .keys]

/-- 40_engine.md R76 and R77: the table of `Event`; with `Quit` in the list the core ends Halted; without it an even number
of `TogglePause` leaves the run state and an odd number swaps Running and Paused. -/
def Obligations.SignalsOfATickAct : Prop :=
  RunState.running.event .togglePause = .paused ∧ RunState.paused.event .togglePause = .running ∧
  RunState.halted.event .togglePause = .halted ∧
  ∀ (r : RunState) (es : List HostEvent),
    (.quit ∈ es → r.applyEvents es = .halted) ∧
    (.quit ∉ es → es.length % 2 = 0 → r.applyEvents es = r) ∧
    (.quit ∉ es → es.length % 2 = 1 → r.applyEvents es = r.event .togglePause)

/-- 40_engine.md R79: a tick whose signals leave the core Paused changes only the keys and the run state: no fetch, no
execute, no timer step, the same framebuffer. -/
def Obligations.PausedTickOnlyLatches : Prop :=
  ∀ (s : State) (ks : Vector Bool 16) (es : List HostEvent), s.run ≠ .halted → s.run.applyEvents es = .paused →
    ∃ t : State, tick ks es s = .next t ∧ t.run = .paused ∧ t.keys = ks ∧ t.fbOut = s.fbOut ∧
      s.changesOnly t [.keys, .run]

/-- 40_engine.md R80: a tick that starts Halted returns the state unchanged; no signal and no instruction leaves Halted; and the
core enters Halted in two ways only, a `Quit` or a runtime error of the tick's cycle. That a Halted step keeps the list of
inputs is the model's (notes/assumptions/7.md and 9.md, DEDUCED); that an error is latched in ERR, in the same tick and
without its timer step, is the spec's own decision D10 (notes/assumptions/11.md). -/
def Obligations.HaltedIsTerminal : Prop :=
  (∀ (s : State) (ks : Vector Bool 16) (es : List HostEvent), s.run = .halted →
    tick ks es s = .next s ∧ step s = .next s) ∧
  (∀ e : HostEvent, RunState.halted.event e = .halted) ∧
  (∀ (i : Instr) (s t : State), s.run = .halted → exec i s = .next t → t.run = .halted) ∧
  (∀ (s t : State) (ks : Vector Bool 16) (es : List HostEvent), s.run ≠ .halted →
    tick ks es s = .next t → t.run = .halted →
    .quit ∈ es ∨ (cycle { s with keys := ks, run := .running } = .next t ∧ ∃ e : RuntimeError, t.err = e.latch))

/-- 60_exceptions.md R116: each timer counts down by 1, never below 0, once in every tick that ends Running, that is in every
Running tick that raises no error, and in no other tick. That a tick ending in an error skips its timer step is the spec's own
decision D10 (notes/assumptions/11.md, DESIGN CHOICE). -/
def Obligations.TimersCountRunningTicks : Prop :=
  ∀ (s t : State) (ks : Vector Bool 16) (es : List HostEvent), s.run ≠ .halted →
    tick ks es s = .next t →
    (t.run = .running → t.dt.toNat = s.dt.toNat - 1 ∧ t.st.toNat = s.st.toNat - 1) ∧
    (t.run ≠ .running → t.dt = s.dt ∧ t.st = s.st)

/-- 70_reset_and_hazards.md R136: after k Running ticks without a signal or an error, a timer that started at d holds d - k,
so it reaches 0 after exactly d of them. -/
def Obligations.TimerReachesZeroInItsCount : Prop :=
  ∀ (k : Nat) (s t : State), s.run = .running → k ≤ s.inputs.length → (∀ inp ∈ s.inputs, inp.events = []) →
    runSteps k s = .next t → t.run = .running →
    t.dt.toNat = s.dt.toNat - k ∧ t.st.toNat = s.st.toNat - k

/-- 60_exceptions.md R107: errors are precise. A tick that halts the core without a `Quit` keeps exactly the state in which
its cycle started, keys latched and signals applied, with RUN Halted and ERR the error; no timer step. The kept state is the
spec's own decision D10 (notes/assumptions/11.md). -/
def Obligations.ErrorsArePrecise : Prop :=
  ∀ (s t : State) (ks : Vector Bool 16) (es : List HostEvent), s.run ≠ .halted → .quit ∉ es →
    tick ks es s = .next t → t.run = .halted →
    ∃ e : ErrLatch, e ≠ .none ∧ t = { s with keys := ks, run := .halted, err := e }

/-- 10_state.md R37: ERR is written only in the step that halts the core, and, in a state that meets the invariant, nothing
clears or replaces it. The latch is the spec's own decision D10 (notes/assumptions/11.md). -/
def Obligations.ErrorLatchIsWrittenOnce : Prop :=
  ∀ s t : State, step s = .next t →
    (t.err ≠ s.err → s.run ≠ .halted ∧ t.run = .halted ∧ t.err ≠ .none) ∧
    (s.Inv → s.err ≠ .none → t.err = s.err)

/-- 40_engine.md R87: a spinning core, ticked while its signals leave it Running, changes only in KEYS, DT and ST, and spins
on. Spinning is the spec's own definition D17. -/
def Obligations.SpinningCoreSpinsOn : Prop :=
  ∀ (s : State) (ks : Vector Bool 16) (es : List HostEvent), s.spinning → s.run.applyEvents es = .running →
    ∃ t : State, tick ks es s = .next t ∧ s.changesOnly t [.keys, .dt, .st] ∧ t.spinning

/-- 40_engine.md R88: pausing does not change the machine. A Running core paused by a toggle, left through any number of
ticks without signals and toggled again, does in that last tick exactly what it would have done without the pause. The list
of inputs that the steps take theirs from is the model's own (notes/assumptions/7.md). -/
def Obligations.PausingDoesNotChangeTheMachine : Prop :=
  ∀ (s : State) (first last : TickInput) (pauses rest : List TickInput), s.run = .running →
    first.events = [.togglePause] → last.events = [.togglePause] → (∀ inp ∈ pauses, inp.events = []) →
    runSteps (pauses.length + 2) { s with inputs := first :: (pauses ++ last :: rest) } =
      step { s with inputs := { keys := last.keys, events := [] } :: rest }

/-- 00_scope.md R11, 60_exceptions.md R117, 10_state.md R33 and R37: the outputs. The tone sounds while ST is above 0; pixel
(x, y) is at index `y * 64 + x` of the 2048 of `fb_out`; `err_out` has the spec's own codes (D11, notes/assumptions/22.md). -/
def Obligations.OutputsReportTheState : Prop :=
  ∀ s : State, (s.toneOut = true ↔ 0 < s.st.toNat) ∧ s.runOut = s.run ∧ s.fbOut.length = 2048 ∧
    (∀ y x, y < 32 → x < 64 → s.fbOut[y * 64 + x]? = some (s.fb.pixel y x)) ∧
    (s.errOut = 0 ↔ s.err = .none) ∧ (s.errOut = 1 ↔ s.err = .stackOverflow) ∧
    (s.errOut = 2 ↔ s.err = .stackUnderflow) ∧ (s.errOut = 3 ↔ s.err = .memoryBounds)

/-! ## Whole-machine rules -/

/-- 10_state.md R22, R24, R31, R33, R35 and R37, 20_memory.md R51 and 60_exceptions.md R106 and R107: which instructions may
write which piece of state. That errors are latched in ERR is the spec's own decision D10 (notes/assumptions/11.md). -/
def Obligations.OnlyTheNamedInstructionsWrite : Prop :=
  ∀ (i : Instr) (s t : State), exec i s = .next t →
    (t.i ≠ s.i → i.kind = .ldI) ∧
    (t.fb ≠ s.fb → i.kind = .cls ∨ i.kind = .drw) ∧
    (t.stack ≠ s.stack → i.kind = .call) ∧
    (t.sp ≠ s.sp → i.kind = .call ∨ i.kind = .ret) ∧
    ((∃ r, r ≠ 15 ∧ t.getV r ≠ s.getV r) → i.kind = .ldByte ∨ i.kind = .addByte) ∧
    (t.getV 15 ≠ s.getV 15 → i.kind = .ldByte ∨ i.kind = .addByte ∨ i.kind = .drw) ∧
    (t.err ≠ s.err → i.kind = .call ∨ i.kind = .ret ∨ i.kind = .drw) ∧
    t.mem = s.mem ∧ t.keys = s.keys ∧ t.dt = s.dt ∧ t.st = s.st ∧ t.inputs = s.inputs

/-- 20_memory.md R51: after construction nothing writes MEM: every step leaves every byte of memory. -/
def Obligations.NoStepWritesMemory : Prop :=
  ∀ s t : State, step s = .next t → ∀ a, t.readByte a = s.readByte a

/-- Every step keeps the invariant: memory canonical, `I` at most 0xFFF (10_state.md R24), `pc` at most
`(MEM_SIZE - 2) + 4` (R28), every valid return address the address after some CALL (41_control_flow.md R90), an error only in
a halted core (R37). -/
def Obligations.StepKeepsTheInvariant : Prop :=
  ∀ s t : State, s.Inv → step s = .next t → t.Inv

/-- The state after reset meets the invariant. -/
def Obligations.ResetMeetsTheInvariant : Prop := State.reset.Inv

/-- Every image that construction accepts starts in a state that meets the invariant (70_reset_and_hazards.md R124). -/
def Obligations.ConstructionMeetsTheInvariant : Prop :=
  ∀ (rom : List Byte) (s : State), construct rom = .ok s → s.Inv

/-- 10_state.md R35 and 60_exceptions.md R119: in every state a program can reach, whatever the host supplies, both timers
are 0 and the tone is silent. -/
def Obligations.ReachableTimersAreZero : Prop :=
  ∀ (rom : List Byte) (s : State), Reaches rom s → s.dt.toNat = 0 ∧ s.st.toNat = 0 ∧ s.toneOut = false

/-- 20_memory.md R51 and R57: in every reachable state memory holds the constructed image: the program's bytes, and below
`ENTRY` and after the program what construction put there. -/
def Obligations.ReachableMemoryIsTheImage : Prop :=
  ∀ (rom : List Byte) (s : State), Reaches rom s →
    (∀ (k : Nat) (b : Byte), rom[k]? = some b → s.readByte (0x200 + k) = .ok b) ∧
    (∀ a, a < 0x200 ∨ 0x200 + rom.length ≤ a → s.readByte a = State.reset.readByte a)

/-- 10_state.md R27: the source's invariant that `pc` is even holds for programs whose jump and call targets are even: a step
keeps `pc` and every valid return address even unless it runs a JP or CALL to an odd target. That reading is the spec's own
decision D2 (notes/assumptions/13.md). -/
def Obligations.EvenTargetsKeepThePcEven : Prop :=
  ∀ s t : State, s.evenAligned → (∀ w, s.preCycle.fetch = .ok w → evenTarget (decode w)) →
    step s = .next t → t.evenAligned

/-- 10_state.md R34 and R35: no instruction can observe the keys or the timers: other values there change nothing else of
what it does. -/
def Obligations.KeysAndTimersAreUnobservable : Prop :=
  ∀ (i : Instr) (s t : State) (ks : Vector Bool 16) (d e : Byte), exec i s = .next t →
    exec i { s with keys := ks, dt := d, st := e } = .next { t with keys := ks, dt := d, st := e }

/-- 10_state.md R32: what a stack slot at or above SP holds cannot be observed: a step from a state with other contents there
differs in stack slots at or above the new SP alone. So nothing rests on the slots' values at reset, the model's choice
(notes/assumptions/5.md). -/
def Obligations.StaleStackSlotsAreUnobservable : Prop :=
  ∀ (s t : State) (other : Vector Word 12), (∀ k, k < s.sp.val → other[k]? = s.stack[k]?) → step s = .next t →
    ∃ other' : Vector Word 12, step { s with stack := other } = .next { t with stack := other' } ∧
      ∀ k, k < t.sp.val → other'[k]? = t.stack[k]?

/-- A word placed for the next step is the word that step runs: keys latched and signals applied, the instruction decoded
from the word, then the timer step, unless the instruction halted the core. That a runtime error skips the timer step is the
spec's own decision D10 (notes/assumptions/11.md). Placing a word stands for loading a program, the model's own convention
(notes/assumptions/18.md, 19.md). A state whose coming tick executes an instruction is changed by it in the two bytes at `pc`
alone. -/
def Obligations.PlacedWordIsTheNextInstruction : Prop :=
  ∀ (s : State) (w : Word), s.mem.wf Config.reference = true →
    (∃ t : State, exec (decode w) (s.withFetchWord 16 w.toNat).preCycle = .next t ∧
      step (s.withFetchWord 16 w.toNat) = .next (if t.run = .halted then t else t.timerTick)) ∧
    (s.run.applyEvents s.hostInput.events = .running → s.pc.toNat + 1 < 4096 →
      s.changesOnly (s.withFetchWord 16 w.toNat) [.mem] ∧
      ∀ a, a ≠ s.pc.toNat → a ≠ s.pc.toNat + 1 → (s.withFetchWord 16 w.toNat).readByte a = s.readByte a)

/-! ## Configurations -/

/-- 00_scope.md R6 and R7: this hardware's value of each parameter but the open font, the constraints that every configuration
meets, and that the core is the machine of this hardware's configuration, whose `exec` is the general one. The values of
`CYCLES_PER_TICK`, `ZERO_FAMILY_MATCH` and `REG_RESET`, and the constraints but the font's, are the spec's own decisions D1,
D5, D7 and D19 (notes/assumptions/3.md, 14.md, 16.md, 17.md). -/
def Obligations.ParametersAreTheTablesAndConstrained : Prop :=
  (Config.reference.memSize = 4096 ∧ Config.reference.entry = 0x200 ∧ Config.reference.maxRom = 3584 ∧
    Config.reference.nregs = 16 ∧ Config.reference.regW = 8 ∧ Config.reference.iW = 16 ∧ Config.reference.pcW = 16 ∧
    Config.reference.stackDepth = 12 ∧ Config.reference.fbW = 64 ∧ Config.reference.fbH = 32 ∧
    Config.reference.nkeys = 16 ∧ Config.reference.timerW = 8 ∧ Config.reference.timerHz = 60 ∧
    Config.reference.cyclesPerTick = 1 ∧ Config.reference.zeroFamilyMatch = .exact ∧ Config.reference.regReset = .zero) ∧
  (∀ cfg : Config.Params, 1 ≤ cfg.fbW ∧ 1 ≤ cfg.fbH ∧ cfg.entry < cfg.memSize ∧ cfg.memSize ≤ 65536 ∧
    1 ≤ cfg.stackDepth ∧ 1 ≤ cfg.cyclesPerTick ∧ cfg.fontBase + cfg.fontData.length ≤ cfg.entry) ∧
  Sys2Proof.core = configured Config.reference ∧ ∀ (i : Instr) (s : State), exec i s = execute i s

/-- 92_eei_decisions.md D7, the setting `unwritten` of `REG_RESET`, in every configuration. A cycle is refused exactly when the
fetched instruction reads a register that nothing has written since construction. A step that is not refused is the step of the
machine without the check. And what an unwritten register holds is unobservable: with other values there, the step answers the
same but for registers still unwritten. The setting is the spec's own decision (notes/assumptions/29.md). -/
def Obligations.UnwrittenRegistersAreNeverRead : Prop :=
  (∀ (cfg : Config.Params) (t : Tracked cfg), t.cycle = .refused .unwrittenRegister ↔
    ∃ w, t.state.fetch = .ok w ∧ t.readable (decodeWith cfg.zeroFamilyMatch w) = false) ∧
  ∀ (cfg : Config.Params) (t u : Tracked cfg), t.step = .next u →
    scriptedTick t.state = .next u.state ∧
    ∀ (v : Vector Byte 16) (i : Word),
      (∀ r : Reg, t.vWritten[r.val] = true → v[r.val] = t.state.v[r.val]) → (t.iWritten = true → i = t.state.i) →
      ∃ (v' : Vector Byte 16) (i' : Word),
        Tracked.step { t with state := { t.state with v := v, i := i } } =
          .next { u with state := { u.state with v := v', i := i' } } ∧
        (∀ r : Reg, u.vWritten[r.val] = true → v'[r.val] = u.state.v[r.val]) ∧ (u.iWritten = true → i' = u.state.i)
end

