-- ==== Sys2Proof/Laws/Config.lean ====
section
/-! SUPPORT. This hardware's parameters as numerals, for arithmetic (00_scope.md R6), and the widths that every configuration has
(93_implementation_defined.md part 1). -/

namespace Sys2Proof.Config

@[simp] theorem reference_memSize : reference.memSize = 4096 := rfl

@[simp] theorem reference_entry : reference.entry = 512 := rfl

@[simp] theorem reference_stackDepth : reference.stackDepth = 12 := rfl

@[simp] theorem reference_fbW : reference.fbW = 64 := rfl

@[simp] theorem reference_fbH : reference.fbH = 32 := rfl

@[simp] theorem reference_maxRom : reference.maxRom = 3584 := rfl

@[simp] theorem reference_cyclesPerTick : reference.cyclesPerTick = 1 := rfl

@[simp] theorem reference_zeroFamilyMatch : reference.zeroFamilyMatch = .exact := rfl

/-- The types of Word.lean have the widths that every configuration gives (R6). -/
theorem widths (cfg : Params) : BitVec cfg.regW = Byte ∧ BitVec cfg.iW = Word ∧ BitVec cfg.pcW = Word ∧
    BitVec cfg.timerW = Byte := by
  obtain ⟨-, h1, h2, h3, -, h4⟩ := cfg.fixed
  rw [h1, h2, h3, h4]
  exact ⟨rfl, rfl, rfl, rfl⟩

end Sys2Proof.Config
end

