-- ==== Sys2Proof/Laws/Memory.lean ====
section
/-! SUPPORT. Memory: what a read finds after a write, that a write keeps the canonical form, and the background's three parts
(20_memory.md R46, R48, R50). -/

namespace Sys2Proof.Machine

open Sys2Proof

variable {cfg : Config.Params}

/-! ## The background -/

theorem Memory.background_of_entry_le {a : Nat} (h : cfg.entry ≤ a) : Memory.background cfg a = 0 := by
  simp [Memory.background, h]

theorem Memory.background_font {k : Nat} (h : k < cfg.fontData.length) :
    Memory.background cfg (cfg.fontBase + k) = cfg.fontData[k] := by
  have hle := cfg.font_fits
  have h1 : ¬ cfg.entry ≤ cfg.fontBase + k := by omega
  have h2 : ¬ cfg.fontBase + k < cfg.fontBase := by omega
  have h3 : cfg.fontBase + k - cfg.fontBase = k := by omega
  simp only [Memory.background, if_neg h1, if_neg h2, h3, List.getElem?_eq_getElem h, Option.getD_some]

theorem Memory.background_outside_font {a : Nat}
    (h : a < cfg.fontBase ∨ cfg.fontBase + cfg.fontData.length ≤ a) : Memory.background cfg a = 0 := by
  unfold Memory.background
  split
  · rfl
  · split
    · rfl
    · rw [List.getElem?_eq_none (by omega)]; rfl

/-! ## Reads -/

@[simp] theorem Memory.byteAt_nil (a : Nat) : Memory.byteAt cfg [] a = Memory.background cfg a := rfl

theorem Memory.byteAt_cons (k : Nat) (b : Byte) (rest : Memory) (a : Nat) :
    Memory.byteAt cfg ((k, b) :: rest) a = if k = a then b else Memory.byteAt cfg rest a := rfl

theorem Memory.read_of_lt {m : Memory} {a : Nat} (h : a < cfg.memSize) : m.read cfg a = .ok (m.byteAt cfg a) := by
  simp [Memory.read, Nat.not_le.mpr h]

theorem Memory.read_of_le {m : Memory} {a : Nat} (h : cfg.memSize ≤ a) : m.read cfg a = .error (.memoryBounds a) := by
  simp [Memory.read, h]

/-! ## The canonical form -/

theorem Memory.wf_cons {k : Nat} {b : Byte} {rest : Memory} :
    Memory.wf cfg ((k, b) :: rest) = true ↔
      k < cfg.memSize ∧ b ≠ Memory.background cfg k ∧ (∀ c ∈ rest, k < c.1) ∧ Memory.wf cfg rest = true := by
  simp [Memory.wf, List.all_eq_true, and_assoc]

/-- An address below every listed one holds the background's byte. -/
theorem Memory.byteAt_of_lt_all {m : Memory} {a : Nat} (h : ∀ c ∈ m, a < c.1) : m.byteAt cfg a = Memory.background cfg a := by
  induction m with
  | nil => rfl
  | cons c rest ih =>
    obtain ⟨k, b⟩ := c
    have hk : a < k := h (k, b) (by simp)
    rw [Memory.byteAt_cons, if_neg (by omega), ih fun c hc => h c (by simp [hc])]

/-- The addresses listed after a write are those listed before, and the one written. -/
theorem Memory.mem_write {m : Memory} {a : Nat} {v : Byte} {c : Host.Cell} (h : c ∈ m.write cfg a v) :
    c ∈ m ∨ c = (a, v) := by
  induction m with
  | nil =>
    simp only [Memory.write] at h
    split at h <;> simp_all
  | cons d rest ih =>
    obtain ⟨k, b⟩ := d
    simp only [Memory.write] at h
    split at h
    · split at h
      · exact .inl h
      · rcases List.mem_cons.mp h with h | h
        · exact .inr h
        · exact .inl h
    · split at h
      · split at h
        · exact .inl (by simp [h])
        · rcases List.mem_cons.mp h with h | h
          · exact .inr h
          · exact .inl (by simp [h])
      · rcases List.mem_cons.mp h with h | h
        · exact .inl (by simp [h])
        · rcases ih h with h | h
          · exact .inl (by simp [h])
          · exact .inr h

/-! ## A write -/

/-- A write leaves every other address as it was, whatever the form of the list. -/
theorem Memory.byteAt_write_of_ne {m : Memory} {a c : Nat} {v : Byte} (h : c ≠ a) : (m.write cfg a v).byteAt cfg c = m.byteAt cfg c := by
  have hac : ¬ a = c := fun e => h e.symm
  induction m with
  | nil => by_cases hv : v = Memory.background cfg a <;> simp [Memory.write, Memory.byteAt, hv, hac]
  | cons d rest ih =>
    obtain ⟨k, b⟩ := d
    by_cases h1 : a < k
    · by_cases hv : v = Memory.background cfg a <;> simp [Memory.write, Memory.byteAt, h1, hv, hac]
    · by_cases h2 : a = k
      · subst h2
        by_cases hv : v = Memory.background cfg a <;> simp [Memory.write, Memory.byteAt, hv, hac]
      · simp [Memory.write, Memory.byteAt, h1, h2, ih]

/-- A write in the canonical form is read back. -/
theorem Memory.byteAt_write_self {m : Memory} {a : Nat} {v : Byte} (hm : m.wf cfg = true) : (m.write cfg a v).byteAt cfg a = v := by
  induction m with
  | nil => by_cases hv : v = Memory.background cfg a <;> simp [Memory.write, Memory.byteAt, hv]
  | cons d rest ih =>
    obtain ⟨k, b⟩ := d
    obtain ⟨-, -, hgt, hrest⟩ := Memory.wf_cons.mp hm
    by_cases h1 : a < k
    · have hka : ¬ k = a := by omega
      have hb := Memory.byteAt_of_lt_all (cfg := cfg) (m := rest) (a := a) fun c hc => Nat.lt_trans h1 (hgt c hc)
      by_cases hv : v = Memory.background cfg a <;> simp [Memory.write, Memory.byteAt, h1, hv, hka, hb]
    · by_cases h2 : a = k
      · subst h2
        have hb := Memory.byteAt_of_lt_all (cfg := cfg) hgt
        by_cases hv : v = Memory.background cfg a <;> simp [Memory.write, Memory.byteAt, hv, hb]
      · have hka : ¬ k = a := fun e => h2 e.symm
        simp [Memory.write, Memory.byteAt, h1, h2, hka, ih hrest]

/-- A write keeps the canonical form. -/
theorem Memory.wf_write {m : Memory} {a : Nat} {v : Byte} (hm : m.wf cfg = true) (ha : a < cfg.memSize) :
    (m.write cfg a v).wf cfg = true := by
  induction m with
  | nil => by_cases hv : v = Memory.background cfg a <;> simp [Memory.write, Memory.wf, hv, ha]
  | cons d rest ih =>
    obtain ⟨k, b⟩ := d
    obtain ⟨hk, hb, hgt, hrest⟩ := Memory.wf_cons.mp hm
    by_cases h1 : a < k
    · by_cases hv : v = Memory.background cfg a
      · simpa only [Memory.write, if_pos h1, if_pos hv] using hm
      · simp only [Memory.write, if_pos h1, if_neg hv]
        refine Memory.wf_cons.mpr ⟨ha, hv, fun c hc => ?_, hm⟩
        rcases List.mem_cons.mp hc with hc | hc
        · simpa [hc] using h1
        · exact Nat.lt_trans h1 (hgt c hc)
    · by_cases h2 : a = k
      · subst h2
        by_cases hv : v = Memory.background cfg a
        · simpa only [Memory.write, if_neg h1, if_true, if_pos hv] using hrest
        · simp only [Memory.write, if_neg h1, if_true, if_neg hv]
          exact Memory.wf_cons.mpr ⟨ha, hv, hgt, hrest⟩
      · simp only [Memory.write, if_neg h1, if_neg h2]
        refine Memory.wf_cons.mpr ⟨hk, hb, fun c hc => ?_, ih hrest⟩
        rcases Memory.mem_write hc with hc | hc
        · exact hgt c hc
        · simp only [hc]; omega

/-! ## The image -/

/-- Writing bytes inside memory keeps the canonical form. -/
theorem Memory.wf_writeBytes {bs : List Byte} {m : Memory} {a : Nat} (hm : m.wf cfg = true)
    (h : a + bs.length ≤ cfg.memSize) : (m.writeBytes cfg a bs).wf cfg = true := by
  induction bs generalizing m a with
  | nil => exact hm
  | cons b bs ih =>
    simp only [List.length_cons] at h
    exact ih (Memory.wf_write hm (by omega)) (by omega)

/-- Writing bytes leaves every address outside them as it was. -/
theorem Memory.byteAt_writeBytes_outside {bs : List Byte} {m : Memory} {a c : Nat} (h : c < a ∨ a + bs.length ≤ c) :
    (m.writeBytes cfg a bs).byteAt cfg c = m.byteAt cfg c := by
  induction bs generalizing m a with
  | nil => rfl
  | cons b bs ih =>
    simp only [List.length_cons] at h
    simp only [Memory.writeBytes]
    rw [ih (by omega), Memory.byteAt_write_of_ne (by omega)]

/-- The bytes written are read back. -/
theorem Memory.byteAt_writeBytes_inside {bs : List Byte} {m : Memory} {a k : Nat} (hm : m.wf cfg = true)
    (h : a + bs.length ≤ cfg.memSize) (hk : k < bs.length) : (m.writeBytes cfg a bs).byteAt cfg (a + k) = bs[k] := by
  induction bs generalizing m a k with
  | nil => simp at hk
  | cons b bs ih =>
    simp only [List.length_cons] at h hk
    simp only [Memory.writeBytes]
    have hwf := Memory.wf_write (v := b) hm (a := a) (by omega)
    cases k with
    | zero =>
      rw [Memory.byteAt_writeBytes_outside (by omega), Nat.add_zero, Memory.byteAt_write_self hm]; rfl
    | succ k =>
      have := ih (m := m.write cfg a b) (a := a + 1) (k := k) hwf (by omega) (by omega)
      rw [show a + (k + 1) = a + 1 + k by omega, this]; rfl

end Sys2Proof.Machine
end

