-- ==== Sys2Proof/Laws/State.lean ====
section
/-! SUPPORT. What each named update leaves in each field of the state: one lemma per field per update. -/

namespace Sys2Proof.Machine

open Sys2Proof

variable {cfg : Config.Params}

/-! ## setV -/

@[simp] theorem State.setV_mem (s : State cfg) (r : Reg) (b : Byte) : (s.setV r b).mem = s.mem := rfl
@[simp] theorem State.setV_v (s : State cfg) (r : Reg) (b : Byte) : (s.setV r b).v = s.v.set r.val b := rfl
@[simp] theorem State.setV_i (s : State cfg) (r : Reg) (b : Byte) : (s.setV r b).i = s.i := rfl
@[simp] theorem State.setV_pc (s : State cfg) (r : Reg) (b : Byte) : (s.setV r b).pc = s.pc := rfl
@[simp] theorem State.setV_stack (s : State cfg) (r : Reg) (b : Byte) : (s.setV r b).stack = s.stack := rfl
@[simp] theorem State.setV_sp (s : State cfg) (r : Reg) (b : Byte) : (s.setV r b).sp = s.sp := rfl
@[simp] theorem State.setV_fb (s : State cfg) (r : Reg) (b : Byte) : (s.setV r b).fb = s.fb := rfl
@[simp] theorem State.setV_keys (s : State cfg) (r : Reg) (b : Byte) : (s.setV r b).keys = s.keys := rfl
@[simp] theorem State.setV_dt (s : State cfg) (r : Reg) (b : Byte) : (s.setV r b).dt = s.dt := rfl
@[simp] theorem State.setV_st (s : State cfg) (r : Reg) (b : Byte) : (s.setV r b).st = s.st := rfl
@[simp] theorem State.setV_run (s : State cfg) (r : Reg) (b : Byte) : (s.setV r b).run = s.run := rfl
@[simp] theorem State.setV_err (s : State cfg) (r : Reg) (b : Byte) : (s.setV r b).err = s.err := rfl
@[simp] theorem State.setV_inputs (s : State cfg) (r : Reg) (b : Byte) : (s.setV r b).inputs = s.inputs := rfl

/-! ## setI -/

@[simp] theorem State.setI_mem (s : State cfg) (w : Word) : (s.setI w).mem = s.mem := rfl
@[simp] theorem State.setI_v (s : State cfg) (w : Word) : (s.setI w).v = s.v := rfl
@[simp] theorem State.setI_i (s : State cfg) (w : Word) : (s.setI w).i = w := rfl
@[simp] theorem State.setI_pc (s : State cfg) (w : Word) : (s.setI w).pc = s.pc := rfl
@[simp] theorem State.setI_stack (s : State cfg) (w : Word) : (s.setI w).stack = s.stack := rfl
@[simp] theorem State.setI_sp (s : State cfg) (w : Word) : (s.setI w).sp = s.sp := rfl
@[simp] theorem State.setI_fb (s : State cfg) (w : Word) : (s.setI w).fb = s.fb := rfl
@[simp] theorem State.setI_keys (s : State cfg) (w : Word) : (s.setI w).keys = s.keys := rfl
@[simp] theorem State.setI_dt (s : State cfg) (w : Word) : (s.setI w).dt = s.dt := rfl
@[simp] theorem State.setI_st (s : State cfg) (w : Word) : (s.setI w).st = s.st := rfl
@[simp] theorem State.setI_run (s : State cfg) (w : Word) : (s.setI w).run = s.run := rfl
@[simp] theorem State.setI_err (s : State cfg) (w : Word) : (s.setI w).err = s.err := rfl
@[simp] theorem State.setI_inputs (s : State cfg) (w : Word) : (s.setI w).inputs = s.inputs := rfl

/-! ## setPc -/

@[simp] theorem State.setPc_mem (s : State cfg) (w : Word) : (s.setPc w).mem = s.mem := rfl
@[simp] theorem State.setPc_v (s : State cfg) (w : Word) : (s.setPc w).v = s.v := rfl
@[simp] theorem State.setPc_i (s : State cfg) (w : Word) : (s.setPc w).i = s.i := rfl
@[simp] theorem State.setPc_pc (s : State cfg) (w : Word) : (s.setPc w).pc = w := rfl
@[simp] theorem State.setPc_stack (s : State cfg) (w : Word) : (s.setPc w).stack = s.stack := rfl
@[simp] theorem State.setPc_sp (s : State cfg) (w : Word) : (s.setPc w).sp = s.sp := rfl
@[simp] theorem State.setPc_fb (s : State cfg) (w : Word) : (s.setPc w).fb = s.fb := rfl
@[simp] theorem State.setPc_keys (s : State cfg) (w : Word) : (s.setPc w).keys = s.keys := rfl
@[simp] theorem State.setPc_dt (s : State cfg) (w : Word) : (s.setPc w).dt = s.dt := rfl
@[simp] theorem State.setPc_st (s : State cfg) (w : Word) : (s.setPc w).st = s.st := rfl
@[simp] theorem State.setPc_run (s : State cfg) (w : Word) : (s.setPc w).run = s.run := rfl
@[simp] theorem State.setPc_err (s : State cfg) (w : Word) : (s.setPc w).err = s.err := rfl
@[simp] theorem State.setPc_inputs (s : State cfg) (w : Word) : (s.setPc w).inputs = s.inputs := rfl

/-! ## advancePc -/

@[simp] theorem State.advancePc_mem (s : State cfg) : s.advancePc.mem = s.mem := rfl
@[simp] theorem State.advancePc_v (s : State cfg) : s.advancePc.v = s.v := rfl
@[simp] theorem State.advancePc_i (s : State cfg) : s.advancePc.i = s.i := rfl
@[simp] theorem State.advancePc_pc (s : State cfg) : s.advancePc.pc = s.pc + 2 := rfl
@[simp] theorem State.advancePc_stack (s : State cfg) : s.advancePc.stack = s.stack := rfl
@[simp] theorem State.advancePc_sp (s : State cfg) : s.advancePc.sp = s.sp := rfl
@[simp] theorem State.advancePc_fb (s : State cfg) : s.advancePc.fb = s.fb := rfl
@[simp] theorem State.advancePc_keys (s : State cfg) : s.advancePc.keys = s.keys := rfl
@[simp] theorem State.advancePc_dt (s : State cfg) : s.advancePc.dt = s.dt := rfl
@[simp] theorem State.advancePc_st (s : State cfg) : s.advancePc.st = s.st := rfl
@[simp] theorem State.advancePc_run (s : State cfg) : s.advancePc.run = s.run := rfl
@[simp] theorem State.advancePc_err (s : State cfg) : s.advancePc.err = s.err := rfl
@[simp] theorem State.advancePc_inputs (s : State cfg) : s.advancePc.inputs = s.inputs := rfl

/-! ## setFb -/

@[simp] theorem State.setFb_mem (s : State cfg) (g : Framebuffer cfg) : (s.setFb g).mem = s.mem := rfl
@[simp] theorem State.setFb_v (s : State cfg) (g : Framebuffer cfg) : (s.setFb g).v = s.v := rfl
@[simp] theorem State.setFb_i (s : State cfg) (g : Framebuffer cfg) : (s.setFb g).i = s.i := rfl
@[simp] theorem State.setFb_pc (s : State cfg) (g : Framebuffer cfg) : (s.setFb g).pc = s.pc := rfl
@[simp] theorem State.setFb_stack (s : State cfg) (g : Framebuffer cfg) : (s.setFb g).stack = s.stack := rfl
@[simp] theorem State.setFb_sp (s : State cfg) (g : Framebuffer cfg) : (s.setFb g).sp = s.sp := rfl
@[simp] theorem State.setFb_fb (s : State cfg) (g : Framebuffer cfg) : (s.setFb g).fb = g := rfl
@[simp] theorem State.setFb_keys (s : State cfg) (g : Framebuffer cfg) : (s.setFb g).keys = s.keys := rfl
@[simp] theorem State.setFb_dt (s : State cfg) (g : Framebuffer cfg) : (s.setFb g).dt = s.dt := rfl
@[simp] theorem State.setFb_st (s : State cfg) (g : Framebuffer cfg) : (s.setFb g).st = s.st := rfl
@[simp] theorem State.setFb_run (s : State cfg) (g : Framebuffer cfg) : (s.setFb g).run = s.run := rfl
@[simp] theorem State.setFb_err (s : State cfg) (g : Framebuffer cfg) : (s.setFb g).err = s.err := rfl
@[simp] theorem State.setFb_inputs (s : State cfg) (g : Framebuffer cfg) : (s.setFb g).inputs = s.inputs := rfl

/-! ## setFlag -/

@[simp] theorem State.setFlag_mem (s : State cfg) (f : Bool) : (s.setFlag f).mem = s.mem := rfl
@[simp] theorem State.setFlag_v (s : State cfg) (f : Bool) : (s.setFlag f).v = s.v.set vf.val (flagByte f) := rfl
@[simp] theorem State.setFlag_i (s : State cfg) (f : Bool) : (s.setFlag f).i = s.i := rfl
@[simp] theorem State.setFlag_pc (s : State cfg) (f : Bool) : (s.setFlag f).pc = s.pc := rfl
@[simp] theorem State.setFlag_stack (s : State cfg) (f : Bool) : (s.setFlag f).stack = s.stack := rfl
@[simp] theorem State.setFlag_sp (s : State cfg) (f : Bool) : (s.setFlag f).sp = s.sp := rfl
@[simp] theorem State.setFlag_fb (s : State cfg) (f : Bool) : (s.setFlag f).fb = s.fb := rfl
@[simp] theorem State.setFlag_keys (s : State cfg) (f : Bool) : (s.setFlag f).keys = s.keys := rfl
@[simp] theorem State.setFlag_dt (s : State cfg) (f : Bool) : (s.setFlag f).dt = s.dt := rfl
@[simp] theorem State.setFlag_st (s : State cfg) (f : Bool) : (s.setFlag f).st = s.st := rfl
@[simp] theorem State.setFlag_run (s : State cfg) (f : Bool) : (s.setFlag f).run = s.run := rfl
@[simp] theorem State.setFlag_err (s : State cfg) (f : Bool) : (s.setFlag f).err = s.err := rfl
@[simp] theorem State.setFlag_inputs (s : State cfg) (f : Bool) : (s.setFlag f).inputs = s.inputs := rfl

/-! ## takeError -/

@[simp] theorem State.takeError_mem (s : State cfg) (e : RuntimeError) : (s.takeError e).mem = s.mem := rfl
@[simp] theorem State.takeError_v (s : State cfg) (e : RuntimeError) : (s.takeError e).v = s.v := rfl
@[simp] theorem State.takeError_i (s : State cfg) (e : RuntimeError) : (s.takeError e).i = s.i := rfl
@[simp] theorem State.takeError_pc (s : State cfg) (e : RuntimeError) : (s.takeError e).pc = s.pc := rfl
@[simp] theorem State.takeError_stack (s : State cfg) (e : RuntimeError) : (s.takeError e).stack = s.stack := rfl
@[simp] theorem State.takeError_sp (s : State cfg) (e : RuntimeError) : (s.takeError e).sp = s.sp := rfl
@[simp] theorem State.takeError_fb (s : State cfg) (e : RuntimeError) : (s.takeError e).fb = s.fb := rfl
@[simp] theorem State.takeError_keys (s : State cfg) (e : RuntimeError) : (s.takeError e).keys = s.keys := rfl
@[simp] theorem State.takeError_dt (s : State cfg) (e : RuntimeError) : (s.takeError e).dt = s.dt := rfl
@[simp] theorem State.takeError_st (s : State cfg) (e : RuntimeError) : (s.takeError e).st = s.st := rfl
@[simp] theorem State.takeError_run (s : State cfg) (e : RuntimeError) : (s.takeError e).run = .halted := rfl
@[simp] theorem State.takeError_err (s : State cfg) (e : RuntimeError) : (s.takeError e).err = e.latch := rfl
@[simp] theorem State.takeError_inputs (s : State cfg) (e : RuntimeError) : (s.takeError e).inputs = s.inputs := rfl

/-! ## timerTick -/

@[simp] theorem State.timerTick_mem (s : State cfg) : s.timerTick.mem = s.mem := rfl
@[simp] theorem State.timerTick_v (s : State cfg) : s.timerTick.v = s.v := rfl
@[simp] theorem State.timerTick_i (s : State cfg) : s.timerTick.i = s.i := rfl
@[simp] theorem State.timerTick_pc (s : State cfg) : s.timerTick.pc = s.pc := rfl
@[simp] theorem State.timerTick_stack (s : State cfg) : s.timerTick.stack = s.stack := rfl
@[simp] theorem State.timerTick_sp (s : State cfg) : s.timerTick.sp = s.sp := rfl
@[simp] theorem State.timerTick_fb (s : State cfg) : s.timerTick.fb = s.fb := rfl
@[simp] theorem State.timerTick_keys (s : State cfg) : s.timerTick.keys = s.keys := rfl
@[simp] theorem State.timerTick_dt (s : State cfg) : s.timerTick.dt = countDown s.dt := rfl
@[simp] theorem State.timerTick_st (s : State cfg) : s.timerTick.st = countDown s.st := rfl
@[simp] theorem State.timerTick_run (s : State cfg) : s.timerTick.run = s.run := rfl
@[simp] theorem State.timerTick_err (s : State cfg) : s.timerTick.err = s.err := rfl
@[simp] theorem State.timerTick_inputs (s : State cfg) : s.timerTick.inputs = s.inputs := rfl

/-! ## latch -/

@[simp] theorem State.latch_mem (s : State cfg) (ks : Vector Bool Config.nkeys) (es : List HostEvent) : (s.latch ks es).mem = s.mem := rfl
@[simp] theorem State.latch_v (s : State cfg) (ks : Vector Bool Config.nkeys) (es : List HostEvent) : (s.latch ks es).v = s.v := rfl
@[simp] theorem State.latch_i (s : State cfg) (ks : Vector Bool Config.nkeys) (es : List HostEvent) : (s.latch ks es).i = s.i := rfl
@[simp] theorem State.latch_pc (s : State cfg) (ks : Vector Bool Config.nkeys) (es : List HostEvent) : (s.latch ks es).pc = s.pc := rfl
@[simp] theorem State.latch_stack (s : State cfg) (ks : Vector Bool Config.nkeys) (es : List HostEvent) : (s.latch ks es).stack = s.stack := rfl
@[simp] theorem State.latch_sp (s : State cfg) (ks : Vector Bool Config.nkeys) (es : List HostEvent) : (s.latch ks es).sp = s.sp := rfl
@[simp] theorem State.latch_fb (s : State cfg) (ks : Vector Bool Config.nkeys) (es : List HostEvent) : (s.latch ks es).fb = s.fb := rfl
@[simp] theorem State.latch_keys (s : State cfg) (ks : Vector Bool Config.nkeys) (es : List HostEvent) : (s.latch ks es).keys = ks := rfl
@[simp] theorem State.latch_dt (s : State cfg) (ks : Vector Bool Config.nkeys) (es : List HostEvent) : (s.latch ks es).dt = s.dt := rfl
@[simp] theorem State.latch_st (s : State cfg) (ks : Vector Bool Config.nkeys) (es : List HostEvent) : (s.latch ks es).st = s.st := rfl
@[simp] theorem State.latch_run (s : State cfg) (ks : Vector Bool Config.nkeys) (es : List HostEvent) : (s.latch ks es).run = s.run.applyEvents es := rfl
@[simp] theorem State.latch_err (s : State cfg) (ks : Vector Bool Config.nkeys) (es : List HostEvent) : (s.latch ks es).err = s.err := rfl
@[simp] theorem State.latch_inputs (s : State cfg) (ks : Vector Bool Config.nkeys) (es : List HostEvent) : (s.latch ks es).inputs = s.inputs := rfl

/-! ## dropInput -/

@[simp] theorem State.dropInput_mem (s : State cfg) : s.dropInput.mem = s.mem := rfl
@[simp] theorem State.dropInput_v (s : State cfg) : s.dropInput.v = s.v := rfl
@[simp] theorem State.dropInput_i (s : State cfg) : s.dropInput.i = s.i := rfl
@[simp] theorem State.dropInput_pc (s : State cfg) : s.dropInput.pc = s.pc := rfl
@[simp] theorem State.dropInput_stack (s : State cfg) : s.dropInput.stack = s.stack := rfl
@[simp] theorem State.dropInput_sp (s : State cfg) : s.dropInput.sp = s.sp := rfl
@[simp] theorem State.dropInput_fb (s : State cfg) : s.dropInput.fb = s.fb := rfl
@[simp] theorem State.dropInput_keys (s : State cfg) : s.dropInput.keys = s.keys := rfl
@[simp] theorem State.dropInput_dt (s : State cfg) : s.dropInput.dt = s.dt := rfl
@[simp] theorem State.dropInput_st (s : State cfg) : s.dropInput.st = s.st := rfl
@[simp] theorem State.dropInput_run (s : State cfg) : s.dropInput.run = s.run := rfl
@[simp] theorem State.dropInput_err (s : State cfg) : s.dropInput.err = s.err := rfl
@[simp] theorem State.dropInput_inputs (s : State cfg) : s.dropInput.inputs = s.inputs.tail := rfl

/-! ## Reading back -/

@[simp] theorem State.getV_setV (s : State cfg) (r q : Reg) (b : Byte) :
    (s.setV r b).getV q = if r = q then b else s.getV q := by
  simp only [State.getV, State.setV, Vector.getElem_set, Fin.ext_iff]

@[simp] theorem State.getV_setFlag (s : State cfg) (f : Bool) (q : Reg) :
    (s.setFlag f).getV q = if vf = q then flagByte f else s.getV q := s.getV_setV vf q (flagByte f)

/-- A register's value depends on the register file alone. -/
theorem State.getV_congr {s t : State cfg} (h : t.v = s.v) (q : Reg) : t.getV q = s.getV q := by
  simp only [State.getV, h]

/-- A byte's value depends on the memory alone. -/
theorem State.readByte_congr {s t : State cfg} (h : t.mem = s.mem) (a : Nat) : t.readByte a = s.readByte a := by
  simp only [State.readByte, h]

end Sys2Proof.Machine
end

