-- ==== Sys2Proof/Laws/Ops.lean ====
section
/-! SUPPORT. One lemma for each shared operation that says everything it can do: the end of an instruction, the call stack,
the framebuffer, the timers, the signals and the fetch. -/

namespace Sys2Proof.Machine

open Sys2Proof

variable {cfg : Config.Params}

/-! ## The end of an instruction -/

@[simp] theorem finish_ok (s t : State cfg) : finish s (.ok t) = .next t := rfl

@[simp] theorem finish_error (s : State cfg) (e : RuntimeError) : finish s (.error e) = .next (s.takeError e) := rfl

/-- An instruction's end is its body's state or the error taken from the state before it, and nothing else. -/
theorem finish_eq_next_iff {s t : State cfg} {r : Except RuntimeError (State cfg)} :
    finish s r = .next t ↔ r = .ok t ∨ ∃ e, r = .error e ∧ t = s.takeError e := by
  cases r with
  | ok u => simp
  | error e => simp [eq_comm]

/-! ## The call stack (10_state.md R31) -/

theorem State.push_of_lt {s : State cfg} {a : Word} (h : s.sp.val < cfg.stackDepth) :
    s.push a = .ok { s with stack := s.stack.set s.sp.val a, sp := ⟨s.sp.val + 1, Nat.succ_lt_succ h⟩ } := by
  simp only [State.push, dif_pos h]

theorem State.push_of_full {s : State cfg} {a : Word} (h : s.sp.val = cfg.stackDepth) : s.push a = .error .stackOverflow := by
  simp only [State.push, dif_neg (Nat.not_lt.mpr (Nat.le_of_eq h.symm))]

theorem State.pop_of_empty {s : State cfg} (h : s.sp.val = 0) : s.pop = .error .stackUnderflow := by
  simp only [State.pop, dif_pos h]

/-- A pop that succeeds answers the top slot, leaves the slots and counts one entry less. -/
theorem State.pop_eq_ok {s t : State cfg} {a : Word} (h : s.pop = .ok (a, t)) :
    s.sp.val = t.sp.val + 1 ∧ s.stack[t.sp.val]? = some a ∧ t = { s with sp := t.sp } := by
  unfold State.pop at h
  split at h
  · cases h
  · rename_i h0
    injection h with h
    injection h with ha ht
    subst ht ha
    have := s.sp.isLt
    refine ⟨by simp only; omega, ?_, rfl⟩
    exact Vector.getElem?_eq_getElem _

theorem State.pop_of_pos {s : State cfg} (h : 0 < s.sp.val) :
    s.pop = .ok (s.stack[s.sp.val - 1]'(by have := s.sp.isLt; omega),
      { s with sp := ⟨s.sp.val - 1, by have := s.sp.isLt; omega⟩ }) := by
  simp only [State.pop, dif_neg (Nat.pos_iff_ne_zero.mp h)]

/-- A push that succeeds writes the slot at SP and counts one entry more. -/
theorem State.push_eq_ok {s t : State cfg} {a : Word} (h : s.push a = .ok t) :
    t.sp.val = s.sp.val + 1 ∧ t.stack[s.sp.val]? = some a ∧ (∀ k, k ≠ s.sp.val → t.stack[k]? = s.stack[k]?) ∧
      t = { s with stack := t.stack, sp := t.sp } := by
  unfold State.push at h
  split at h
  · rename_i h0
    injection h with h
    subst h
    refine ⟨rfl, ?_, fun k hk => ?_, rfl⟩
    · simp only [Vector.getElem?_set_self]
    · simp only [Vector.getElem?_set, if_neg (Ne.symm hk)]
  · cases h

theorem State.push_eq_error {s : State cfg} {a : Word} {e : RuntimeError} (h : s.push a = .error e) :
    s.sp.val = cfg.stackDepth ∧ e = .stackOverflow := by
  unfold State.push at h
  split at h
  · cases h
  · rename_i h0
    have := s.sp.isLt
    injection h with h
    exact ⟨by omega, h.symm⟩

theorem State.pop_eq_error {s : State cfg} {e : RuntimeError} (h : s.pop = .error e) :
    s.sp.val = 0 ∧ e = .stackUnderflow := by
  unfold State.pop at h
  split at h
  · rename_i h0
    injection h with h
    exact ⟨h0, h.symm⟩
  · cases h

/-! ## The framebuffer (10_state.md R33) -/

theorem Framebuffer.pixel_of_outside {fb : Framebuffer cfg} {y x : Nat} (h : ¬ (y < cfg.fbH ∧ x < cfg.fbW)) :
    fb.pixel y x = false := dif_neg h

theorem Framebuffer.pixel_of_inside {fb : Framebuffer cfg} {y x : Nat} (hy : y < cfg.fbH) (hx : x < cfg.fbW) :
    fb.pixel y x = fb[y][x] := dif_pos ⟨hy, hx⟩

/-- Writing one pixel of the grid writes that pixel and no other. -/
theorem Framebuffer.pixel_setPixel {fb : Framebuffer cfg} {y x : Nat} {on : Bool} (hy : y < cfg.fbH) (hx : x < cfg.fbW)
    (py px : Nat) : (fb.setPixel y x on).pixel py px = if y = py ∧ x = px then on else fb.pixel py px := by
  have hset : fb.setPixel y x on = fb.set y (fb[y].set x on) := dif_pos ⟨hy, hx⟩
  by_cases h : py < cfg.fbH ∧ px < cfg.fbW
  · rw [Framebuffer.pixel_of_inside h.1 h.2, Framebuffer.pixel_of_inside h.1 h.2, hset]
    by_cases hyp : y = py
    · subst hyp
      by_cases hxp : x = px
      · simp [hxp]
      · simp [hxp]
    · simp [hyp]
  · rw [Framebuffer.pixel_of_outside h, Framebuffer.pixel_of_outside h, if_neg]
    rintro ⟨rfl, rfl⟩
    exact h ⟨hy, hx⟩

@[simp] theorem Framebuffer.pixel_blank (y x : Nat) : (Framebuffer.blank : Framebuffer cfg).pixel y x = false := by
  unfold Framebuffer.pixel
  split <;> simp [Framebuffer.blank]

/-- Two framebuffers with the same pixels are the same. -/
theorem Framebuffer.ext_pixel {f g : Framebuffer cfg} (h : ∀ y x, f.pixel y x = g.pixel y x) : f = g := by
  refine Vector.ext fun y hy => Vector.ext fun x hx => ?_
  have := h y x
  rwa [Framebuffer.pixel_of_inside hy hx, Framebuffer.pixel_of_inside hy hx] at this

/-! ## Timers (60_exceptions.md R116) -/

theorem countDown_toNat (t : Byte) : (countDown t).toNat = t.toNat - 1 := by
  unfold countDown
  split
  · subst_vars; rfl
  · bv_omega

/-! ## Signals (40_engine.md R75 to R77) -/

@[simp] theorem RunState.event_halted (e : HostEvent) : RunState.halted.event e = .halted := by cases e <;> rfl

@[simp] theorem RunState.event_quit (r : RunState) : r.event .quit = .halted := by cases r <;> rfl

@[simp] theorem RunState.applyEvents_nil (r : RunState) : r.applyEvents [] = r := rfl

@[simp] theorem RunState.applyEvents_cons (r : RunState) (e : HostEvent) (es : List HostEvent) :
    r.applyEvents (e :: es) = (r.event e).applyEvents es := rfl

/-- Halted absorbs every signal. -/
@[simp] theorem RunState.applyEvents_halted (es : List HostEvent) : RunState.halted.applyEvents es = .halted := by
  induction es with
  | nil => rfl
  | cons e es ih => simpa using ih

end Sys2Proof.Machine
end

