-- ==== Sys2Proof/Laws/Draw.lean ====
section
/-! SUPPORT. The two loops of DRW (43_display.md R99): what each composites, in closed form. -/

namespace Sys2Proof.Machine

open Sys2Proof

variable {cfg : Config.Params}

/-- What `drawCols` does to pixels and flag: the columns `c` to `c + k - 1` that lie inside the row, and no other. -/
theorem drawCols_spec (b : Byte) {y : Nat} (hy : y < cfg.fbH) (x0 k c : Nat) (d : Drawing cfg) :
    (∀ py px, (drawCols b y x0 k c d).fb.pixel py px =
      if py = y ∧ x0 + c ≤ px ∧ px < x0 + c + k ∧ px < cfg.fbW then xor (d.fb.pixel py px) (spriteBit b (px - x0))
      else d.fb.pixel py px) ∧
    ((drawCols b y x0 k c d).flag = true ↔
      d.flag = true ∨ ∃ j, c ≤ j ∧ j < c + k ∧ x0 + j < cfg.fbW ∧ spriteBit b j = true ∧ d.fb.pixel y (x0 + j) = true) := by
  induction k generalizing c d with
  | zero =>
    refine ⟨fun py px => ?_, ?_⟩
    · rw [if_neg (by omega)]; rfl
    · refine ⟨fun h => .inl h, ?_⟩
      rintro (h | ⟨j, h1, h2, -⟩)
      · exact h
      · omega
  | succ k ih =>
    unfold drawCols
    split
    · rename_i hstop
      refine ⟨fun py px => ?_, ?_⟩
      · rw [if_neg (by omega)]
      · refine ⟨fun h => .inl h, ?_⟩
        rintro (h | ⟨j, h1, -, h3, -⟩)
        · exact h
        · omega
    · rename_i hgo
      have hx : x0 + c < cfg.fbW := by omega
      obtain ⟨ihp, ihf⟩ := ih (c + 1) (d.plot y (x0 + c) (spriteBit b c))
      have hplot : ∀ py px, (d.plot y (x0 + c) (spriteBit b c)).fb.pixel py px =
          if y = py ∧ x0 + c = px then xor (d.fb.pixel y (x0 + c)) (spriteBit b c) else d.fb.pixel py px :=
        fun py px => Framebuffer.pixel_setPixel hy hx py px
      refine ⟨fun py px => ?_, ?_⟩
      · rw [ihp, hplot]
        by_cases hpy : py = y
        · subst hpy
          by_cases hpx : px = x0 + c
          · subst hpx
            rw [if_neg (by omega), if_pos ⟨rfl, rfl⟩, if_pos (by omega), Nat.add_sub_cancel_left]
          · have h1 : ¬ (py = py ∧ x0 + c = px) := by omega
            rw [if_neg h1]
            by_cases hin : x0 + (c + 1) ≤ px ∧ px < x0 + (c + 1) + k ∧ px < cfg.fbW
            · rw [if_pos ⟨rfl, hin⟩, if_pos (by omega)]
            · rw [if_neg (by omega), if_neg (by omega)]
        · rw [if_neg (by omega), if_neg (by omega), if_neg (by omega)]
      · rw [ihf]
        have hpix : ∀ j, c + 1 ≤ j → (d.plot y (x0 + c) (spriteBit b c)).fb.pixel y (x0 + j) = d.fb.pixel y (x0 + j) := by
          intro j hj
          rw [hplot, if_neg (by omega)]
        have hflag : (d.plot y (x0 + c) (spriteBit b c)).flag = true ↔
            d.flag = true ∨ (spriteBit b c = true ∧ d.fb.pixel y (x0 + c) = true) := by
          simp only [Drawing.plot, collides, Bool.or_eq_true, Bool.and_eq_true]
        rw [hflag]
        constructor
        · rintro ((h | h) | ⟨j, h1, h2, h3, h4, h5⟩)
          · exact .inl h
          · exact .inr ⟨c, by omega, by omega, hx, h⟩
          · exact .inr ⟨j, by omega, by omega, h3, h4, by rwa [hpix j h1] at h5⟩
        · rintro (h | ⟨j, h1, h2, h3, h4, h5⟩)
          · exact .inl (.inl h)
          · by_cases hj : j = c
            · subst hj; exact .inl (.inr ⟨h4, h5⟩)
            · exact .inr ⟨j, by omega, by omega, h3, h4, by rwa [hpix j (by omega)]⟩

/-- One row drawn: nothing outside that row changes. -/
theorem drawCols_other_row (b : Byte) {y : Nat} (hy : y < cfg.fbH) (x0 k c : Nat) (d : Drawing cfg) {py : Nat} (h : py ≠ y)
    (px : Nat) : (drawCols b y x0 k c d).fb.pixel py px = d.fb.pixel py px := by
  rw [(drawCols_spec b hy x0 k c d).1, if_neg (fun hc => h hc.1)]

/-- What `drawRows` does when it succeeds: rows `r` to `r + k - 1` of the sprite that lie on the screen, each from its own byte. -/
theorem drawRows_spec {m : Memory} {base y0 x0 k r : Nat} {d e : Drawing cfg}
    (h : drawRows m base y0 x0 k r d = .ok e) :
    (∀ py px, e.fb.pixel py px =
      if y0 + r ≤ py ∧ py < y0 + r + k ∧ py < cfg.fbH ∧ x0 ≤ px ∧ px < x0 + 8 ∧ px < cfg.fbW then
        xor (d.fb.pixel py px) (spriteBit (m.byteAt cfg (base + (py - y0))) (px - x0))
      else d.fb.pixel py px) ∧
    (e.flag = true ↔ d.flag = true ∨ ∃ q c, r ≤ q ∧ q < r + k ∧ y0 + q < cfg.fbH ∧ c < 8 ∧ x0 + c < cfg.fbW ∧
      spriteBit (m.byteAt cfg (base + q)) c = true ∧ d.fb.pixel (y0 + q) (x0 + c) = true) := by
  induction k generalizing r d with
  | zero =>
    injection h with h
    subst h
    refine ⟨fun py px => by rw [if_neg (by omega)], fun h => .inl h, ?_⟩
    rintro (h | ⟨q, c, h1, h2, -⟩)
    · exact h
    · omega
  | succ k ih =>
    unfold drawRows at h
    split at h
    · rename_i hstop
      injection h with h
      subst h
      refine ⟨fun py px => by rw [if_neg (by omega)], fun h => .inl h, ?_⟩
      rintro (h | ⟨q, c, h1, -, h3, -⟩)
      · exact h
      · omega
    · rename_i hgo
      have hy : y0 + r < cfg.fbH := by omega
      by_cases hm : base + r < cfg.memSize
      · rw [Memory.read_of_lt hm] at h
        simp only at h
        obtain ⟨ihp, ihf⟩ := ih h
        obtain ⟨hcp, hcf⟩ := drawCols_spec (m.byteAt cfg (base + r)) hy x0 8 0 d
        simp only [Nat.add_zero, Nat.zero_add, Nat.zero_le, true_and] at hcp hcf
        refine ⟨fun py px => ?_, ?_⟩
        · rw [ihp]
          by_cases hrow : py = y0 + r
          · subst hrow
            rw [if_neg (by omega), hcp]
            by_cases hin : x0 ≤ px ∧ px < x0 + 8 ∧ px < cfg.fbW
            · rw [if_pos ⟨rfl, hin⟩, if_pos (by omega), Nat.add_sub_cancel_left]
            · rw [if_neg (by omega), if_neg (by omega)]
          · rw [drawCols_other_row _ hy _ _ _ _ hrow]
            by_cases hin : y0 + (r + 1) ≤ py ∧ py < y0 + (r + 1) + k ∧ py < cfg.fbH ∧ x0 ≤ px ∧ px < x0 + 8 ∧
                px < cfg.fbW
            · rw [if_pos hin, if_pos (by omega)]
            · rw [if_neg hin, if_neg (by omega)]
        · rw [ihf, hcf]
          constructor
          · rintro ((h | ⟨c, h2, h3, h4, h5⟩) | ⟨q, c, h1, h2, h3, h4, h5, h6, h7⟩)
            · exact .inl h
            · exact .inr ⟨r, c, by omega, by omega, hy, h2, h3, h4, h5⟩
            · exact .inr ⟨q, c, by omega, by omega, h3, h4, h5, h6, by
                rwa [drawCols_other_row _ hy _ _ _ _ (by omega)] at h7⟩
          · rintro (h | ⟨q, c, h1, h2, h3, h4, h5, h6, h7⟩)
            · exact .inl (.inl h)
            · by_cases hq : q = r
              · subst hq; exact .inl (.inr ⟨c, h4, h5, h6, h7⟩)
              · exact .inr ⟨q, c, by omega, by omega, h3, h4, h5, h6, by
                  rwa [drawCols_other_row _ hy _ _ _ _ (by omega)]⟩
      · rw [Memory.read_of_le (by omega)] at h
        cases h

/-- The rows are drawn when each row on the screen lies in memory. -/
theorem drawRows_of_inMemory {m : Memory} {base y0 x0 k r : Nat} {d : Drawing cfg}
    (h : ∀ q, r ≤ q → q < r + k → y0 + q < cfg.fbH → base + q < cfg.memSize) :
    ∃ e, drawRows m base y0 x0 k r d = .ok e := by
  induction k generalizing r d with
  | zero => exact ⟨d, rfl⟩
  | succ k ih =>
    unfold drawRows
    split
    · exact ⟨d, rfl⟩
    · rename_i hgo
      rw [Memory.read_of_lt (h r (by omega) (by omega) (by omega))]
      exact ih fun q h1 h2 h3 => h q (by omega) (by omega) h3

/-- A draw that fails names the first row on the screen that lies outside memory (60_exceptions.md R108, R109). -/
theorem drawRows_of_outside {m : Memory} {base y0 x0 k r q : Nat} {d : Drawing cfg} (h1 : r ≤ q) (h2 : q < r + k)
    (h3 : y0 + q < cfg.fbH) (h4 : cfg.memSize ≤ base + q) (h5 : ∀ p, p < q → base + p < cfg.memSize) :
    drawRows m base y0 x0 k r d = .error (.memoryBounds (base + q)) := by
  induction k generalizing r d with
  | zero => omega
  | succ k ih =>
    unfold drawRows
    rw [if_neg (by omega)]
    by_cases hq : q = r
    · subst hq; rw [Memory.read_of_le h4]
    · rw [Memory.read_of_lt (h5 r (by omega))]
      exact ih (by omega) (by omega)

/-- A draw raises nothing but `MemoryBounds`. -/
theorem drawRows_error {m : Memory} {base y0 x0 k r : Nat} {d : Drawing cfg} {e : RuntimeError}
    (h : drawRows m base y0 x0 k r d = .error e) : ∃ a, e = .memoryBounds a := by
  induction k generalizing r d with
  | zero => cases h
  | succ k ih =>
    unfold drawRows at h
    split at h
    · cases h
    · by_cases hm : base + r < cfg.memSize
      · rw [Memory.read_of_lt hm] at h; exact ih h
      · rw [Memory.read_of_le (by omega)] at h
        injection h with h
        exact ⟨_, h.symm⟩

/-- A sprite bit as the rule writes it: `(b >> (7 - c)) & 1` (43_display.md R99). -/
theorem spriteBit_eq (b : Byte) (c : Nat) : spriteBit b c = decide (b.toNat / 2 ^ (7 - c) % 2 = 1) := by
  rw [spriteBit, BitVec.getLsbD, Nat.testBit_eq_decide_div_mod_eq]

end Sys2Proof.Machine
end

