-- ==== Sys2Proof/Laws/Exec.lean ====
section
/-! SUPPORT. What an instruction and a step can do, said once: every instruction is a body run with `pc` past it and then
`finish`; the body's frame; and one inversion lemma for a step. -/

namespace Sys2Proof.Machine

open Sys2Proof

variable {cfg : Config.Params}

/-- The pseudocode of each instruction, run with `pc` past it (00_scope.md R17). -/
def bodyOf : Instr → State cfg → Except RuntimeError (State cfg)
  | .cls, s => .ok (s.setFb Framebuffer.blank)
  | .ret, s => retBody s
  | .jp nnn, s => .ok (s.setPc (address nnn))
  | .call nnn, s => callBody nnn s
  | .seByte x nn, s => .ok (if s.equalsImm x nn then s.advancePc else s)
  | .ldByte x nn, s => .ok (s.setV x nn)
  | .addByte x nn, s => .ok (s.setV x (s.getV x + nn))
  | .ldI nnn, s => .ok (s.setI (address nnn))
  | .drw x y n, s => drwBody x y n s
  | .nop0 _, s => .ok s
  | .nop4 _, s => .ok s
  | .nop5 _, s => .ok s
  | .nop8 _, s => .ok s
  | .nop9 _, s => .ok s
  | .nopB _, s => .ok s
  | .nopC _, s => .ok s
  | .nopE _, s => .ok s
  | .nopF _, s => .ok s

theorem execute_eq_finish (i : Instr) (s : State cfg) : execute i s = finish s (bodyOf i s.advancePc) := by
  cases i <;> rfl

/-- `exec` is `execute` in this hardware's configuration. -/
theorem exec_eq_execute (i : Instr) (s : State) : exec i s = execute i s := by
  cases i <;> rfl

theorem exec_eq_finish (i : Instr) (s : State) : exec i s = finish s (bodyOf i s.advancePc) := by
  rw [exec_eq_execute, execute_eq_finish]

/-- An instruction answers a next state: its body's, or the error taken from the state before it. -/
theorem execute_next_iff {i : Instr} {s t : State cfg} :
    execute i s = .next t ↔ bodyOf i s.advancePc = .ok t ∨ ∃ e, bodyOf i s.advancePc = .error e ∧ t = s.takeError e := by
  rw [execute_eq_finish, finish_eq_next_iff]

theorem exec_next_iff {i : Instr} {s t : State} :
    exec i s = .next t ↔ bodyOf i s.advancePc = .ok t ∨ ∃ e, bodyOf i s.advancePc = .error e ∧ t = s.takeError e := by
  rw [exec_eq_execute, execute_next_iff]

/-- An instruction always answers a next state. -/
theorem execute_answers (i : Instr) (s : State cfg) : ∃ t, execute i s = .next t := by
  rw [execute_eq_finish]
  cases bodyOf i s.advancePc with
  | ok t => exact ⟨t, rfl⟩
  | error e => exact ⟨_, rfl⟩

theorem exec_answers (i : Instr) (s : State) : ∃ t, exec i s = .next t := by
  rw [exec_eq_execute]; exact execute_answers i s

/-! ## The bodies that may raise an error -/

theorem retBody_eq_ok {s t : State cfg} (h : retBody s = .ok t) :
    s.sp.val = t.sp.val + 1 ∧ s.stack[t.sp.val]? = some t.pc ∧ t = { s with sp := t.sp, pc := t.pc } := by
  unfold retBody at h
  split at h
  · rename_i a u hp
    injection h with h
    subst h
    obtain ⟨h1, h2, h3⟩ := State.pop_eq_ok hp
    refine ⟨h1, h2, ?_⟩
    rw [h3]; rfl
  · cases h

theorem callBody_eq_ok {nnn : Addr12} {s t : State cfg} (h : callBody nnn s = .ok t) :
    t.sp.val = s.sp.val + 1 ∧ t.stack[s.sp.val]? = some s.pc ∧ (∀ k, k ≠ s.sp.val → t.stack[k]? = s.stack[k]?) ∧
      t = { s with stack := t.stack, sp := t.sp, pc := address nnn } := by
  unfold callBody at h
  split at h
  · rename_i u hp
    injection h with h
    subst h
    obtain ⟨h1, h2, h3, h4⟩ := State.push_eq_ok hp
    refine ⟨h1, h2, h3, ?_⟩
    rw [h4]; rfl
  · cases h

/-- DRW's body is its loops from the origin the registers name, before VF is cleared. -/
theorem bodyOf_drw (x y : Reg) (n : Nibble) (s : State cfg) :
    bodyOf (.drw x y n) s.advancePc =
      match drawRows s.mem s.i.toNat (s.originY y) (s.originX x) (spriteHeight n) 0 { fb := s.fb, flag := false } with
      | .ok d => .ok ((s.advancePc.setFb d.fb).setFlag d.flag)
      | .error e => .error e := rfl

/-- A draw that succeeds writes the framebuffer and VF, and nothing else. -/
theorem drwBody_eq_ok {x y : Reg} {n : Nibble} {s t : State cfg} (h : drwBody x y n s = .ok t) :
    ∃ d, drawRows s.mem s.i.toNat (s.originY y) (s.originX x) (spriteHeight n) 0 { fb := s.fb, flag := false } = .ok d ∧
      t = (s.setFb d.fb).setFlag d.flag := by
  unfold drwBody at h
  split at h
  · rename_i d hd
    injection h with h
    exact ⟨d, hd, h.symm⟩
  · cases h

/-! ## The frame of every body -/

/-- No instruction writes memory, the keys, the timers, the run state, the error latch or the script. -/
theorem bodyOf_frame {i : Instr} {s t : State cfg} (h : bodyOf i s = .ok t) :
    t.mem = s.mem ∧ t.keys = s.keys ∧ t.dt = s.dt ∧ t.st = s.st ∧ t.run = s.run ∧ t.err = s.err ∧ t.inputs = s.inputs := by
  cases i
  case ret =>
    have hb : retBody s = .ok t := h
    rw [(retBody_eq_ok hb).2.2]; exact ⟨rfl, rfl, rfl, rfl, rfl, rfl, rfl⟩
  case call =>
    have hb : callBody _ s = .ok t := h
    rw [(callBody_eq_ok hb).2.2.2]; exact ⟨rfl, rfl, rfl, rfl, rfl, rfl, rfl⟩
  case drw =>
    have hb : drwBody _ _ _ s = .ok t := h
    obtain ⟨d, -, rfl⟩ := drwBody_eq_ok hb
    exact ⟨rfl, rfl, rfl, rfl, rfl, rfl, rfl⟩
  case seByte =>
    injection h with h
    split at h <;> (subst h; exact ⟨rfl, rfl, rfl, rfl, rfl, rfl, rfl⟩)
  all_goals (injection h with h; subst h; exact ⟨rfl, rfl, rfl, rfl, rfl, rfl, rfl⟩)

/-- `I` is written by LD I alone (10_state.md R24). -/
theorem bodyOf_i {i : Instr} {s t : State cfg} (h : bodyOf i s = .ok t) :
    t.i = s.i ∨ ∃ nnn, i = .ldI nnn ∧ t.i = address nnn := by
  cases i
  case ret => exact .inl (by rw [(retBody_eq_ok (show retBody s = .ok t from h)).2.2])
  case call => exact .inl (by rw [(callBody_eq_ok (show callBody _ s = .ok t from h)).2.2.2])
  case drw =>
    obtain ⟨d, -, rfl⟩ := drwBody_eq_ok (show drwBody _ _ _ s = .ok t from h)
    exact .inl rfl
  case seByte => injection h with h; split at h <;> (subst h; exact .inl rfl)
  case ldI nnn => injection h with h; subst h; exact .inr ⟨nnn, rfl, rfl⟩
  all_goals (injection h with h; subst h; exact .inl rfl)

/-- Where a body leaves `pc`: where it found it, one instruction further, or at a transfer's target. -/
theorem bodyOf_pc {i : Instr} {s t : State cfg} (h : bodyOf i s = .ok t) :
    t.pc = s.pc ∨ t.pc = s.pc + 2 ∨ (∃ nnn, i = .jp nnn ∧ t.pc = address nnn) ∨ (i = .ret ∧ retBody s = .ok t) ∨
      ∃ nnn, i = .call nnn ∧ callBody nnn s = .ok t := by
  cases i
  case ret => exact .inr (.inr (.inr (.inl ⟨rfl, h⟩)))
  case call nnn => exact .inr (.inr (.inr (.inr ⟨nnn, rfl, h⟩)))
  case jp nnn => injection h with h; subst h; exact .inr (.inr (.inl ⟨nnn, rfl, rfl⟩))
  case drw =>
    obtain ⟨d, -, rfl⟩ := drwBody_eq_ok (show drwBody _ _ _ s = .ok t from h)
    exact .inl rfl
  case seByte =>
    injection h with h
    split at h
    · subst h; exact .inr (.inl rfl)
    · subst h; exact .inl rfl
  all_goals (injection h with h; subst h; exact .inl rfl)

/-- The call stack is CALL's and RET's alone (10_state.md R31, R32). -/
theorem bodyOf_stack {i : Instr} {s t : State cfg} (h : bodyOf i s = .ok t) :
    (t.stack = s.stack ∧ t.sp = s.sp) ∨ (i = .ret ∧ retBody s = .ok t) ∨ ∃ nnn, i = .call nnn ∧ callBody nnn s = .ok t := by
  cases i
  case ret => exact .inr (.inl ⟨rfl, h⟩)
  case call nnn => exact .inr (.inr ⟨nnn, rfl, h⟩)
  case drw =>
    obtain ⟨d, -, rfl⟩ := drwBody_eq_ok (show drwBody _ _ _ s = .ok t from h)
    exact .inl ⟨rfl, rfl⟩
  case seByte => injection h with h; split at h <;> (subst h; exact .inl ⟨rfl, rfl⟩)
  all_goals (injection h with h; subst h; exact .inl ⟨rfl, rfl⟩)

/-! ## A cycle and a step -/

theorem State.fetch_of_inside {s : State cfg} (h : s.pc.toNat + 1 < cfg.memSize) :
    s.fetch = .ok (wordOfBytes (s.mem.byteAt cfg s.pc.toNat) (s.mem.byteAt cfg (s.pc.toNat + 1))) := by
  have h0 : s.pc.toNat < cfg.memSize := by omega
  simp only [State.fetch, State.readByte, Memory.read_of_lt h0, Memory.read_of_lt h]

theorem State.fetch_eq_ok {s : State cfg} {w : Word} (h : s.fetch = .ok w) :
    s.pc.toNat + 1 < cfg.memSize ∧ w = wordOfBytes (s.mem.byteAt cfg s.pc.toNat) (s.mem.byteAt cfg (s.pc.toNat + 1)) := by
  by_cases h1 : s.pc.toNat + 1 < cfg.memSize
  · rw [State.fetch_of_inside h1] at h
    injection h with h
    exact ⟨h1, h.symm⟩
  · exfalso
    by_cases h0 : s.pc.toNat < cfg.memSize
    · simp only [State.fetch, State.readByte, Memory.read_of_lt h0, Memory.read_of_le (Nat.not_lt.mp h1)] at h
      cases h
    · simp only [State.fetch, State.readByte, Memory.read_of_le (Nat.not_lt.mp h0)] at h
      cases h

/-- The two outcomes of a cycle (40_engine.md R85). -/
theorem cycle_cases {s t : State cfg} (h : cycle s = .next t) :
    (∃ e, t = s.takeError e) ∨ ∃ w, s.fetch = .ok w ∧ bodyOf (decodeWith cfg.zeroFamilyMatch w) s.advancePc = .ok t := by
  unfold cycle at h
  split at h
  · injection h with h
    exact .inl ⟨_, h.symm⟩
  · rename_i w hw
    rcases execute_next_iff.mp h with h | ⟨e, -, h⟩
    · exact .inr ⟨w, hw, h⟩
    · exact .inl ⟨e, h⟩

theorem cycle_answers (s : State cfg) : ∃ t, cycle s = .next t := by
  unfold cycle
  split
  · exact ⟨_, rfl⟩
  · exact execute_answers _ _

/-- A cycle leaves RUN, or it halts the core by an error. -/
theorem cycle_run {s t : State cfg} (h : cycle s = .next t) : t.run = s.run ∨ ∃ e, t = s.takeError e := by
  rcases cycle_cases h with h | ⟨w, -, hb⟩
  · exact .inr h
  · exact .inl (bodyOf_frame hb).2.2.2.2.1

theorem cycles_answers (n : Nat) (s : State cfg) : ∃ t, cycles n s = .next t := by
  induction n generalizing s with
  | zero => exact ⟨s, rfl⟩
  | succ n ih =>
    obtain ⟨t, ht⟩ := cycle_answers s
    simp only [cycles, ht]
    split
    · exact ⟨t, rfl⟩
    · exact ih t

/-- One cycle a tick (00_scope.md R8). -/
theorem cycles_one (s : State cfg) : cycles 1 s = cycle s := by
  obtain ⟨t, ht⟩ := cycle_answers s
  simp [cycles, ht]

theorem tick_of_halted {ks : Vector Bool Config.nkeys} {es : List HostEvent} {s : State cfg}
    (h : s.run = .halted) : tick ks es s = .next s := if_pos h

theorem tick_of_not_halted {ks : Vector Bool Config.nkeys} {es : List HostEvent} {s : State cfg}
    (h : s.run ≠ .halted) : tick ks es s = runTick (s.latch ks es) := if_neg h

/-- A tick of any configuration answers a next state. -/
theorem tick_answers (ks : Vector Bool Config.nkeys) (es : List HostEvent) (s : State cfg) :
    ∃ t, tick ks es s = .next t := by
  unfold tick
  split
  · exact ⟨s, rfl⟩
  · unfold runTick
    split
    · exact ⟨_, rfl⟩
    · exact ⟨_, rfl⟩
    · obtain ⟨t, ht⟩ := cycles_answers cfg.cyclesPerTick (s.latch ks es)
      simp only [ht, afterCycles]
      split
      · exact ⟨_, rfl⟩
      · exact ⟨_, rfl⟩

/-- A tick of this hardware that starts Halted is the identity. One that does not, by its signals, ends Halted or Paused with
no cycle run, or it runs one cycle and, unless that halted it, the timer step. -/
theorem tick_cases {ks : Vector Bool Config.nkeys} {es : List HostEvent} {s t : State} (h : tick ks es s = .next t) :
    (s.run = .halted ∧ t = s) ∨
    (s.run ≠ .halted ∧ ∃ p, p = s.latch ks es ∧
      ((p.run = .halted ∧ t = p) ∨ (p.run = .paused ∧ t = p) ∨
       (p.run = .running ∧ ((cycle p = .next t ∧ ∃ e, t = p.takeError e) ∨
         ∃ w u, p.fetch = .ok w ∧ bodyOf (decode w) p.advancePc = .ok u ∧ t = u.timerTick)))) := by
  by_cases hr : s.run = .halted
  · rw [tick_of_halted hr] at h
    injection h with h
    exact .inl ⟨hr, h.symm⟩
  · refine .inr ⟨hr, _, rfl, ?_⟩
    rw [tick_of_not_halted hr] at h
    generalize hp : s.latch ks es = p at h
    unfold runTick at h
    split at h
    · rename_i hrun
      injection h with h
      exact .inl ⟨hrun, h.symm⟩
    · rename_i hrun
      injection h with h
      exact .inr (.inl ⟨hrun, h.symm⟩)
    · rename_i hrun
      refine .inr (.inr ⟨hrun, ?_⟩)
      rw [Config.reference_cyclesPerTick, cycles_one] at h
      obtain ⟨u, hu⟩ := cycle_answers p
      rw [hu] at h
      simp only [afterCycles] at h
      rcases cycle_cases hu with ⟨e, rfl⟩ | ⟨w, hw, hb⟩
      · simp only [State.takeError_run, if_true] at h
        injection h with h
        subst h
        exact .inl ⟨hu, e, rfl⟩
      · have hur : u.run = .running := by rw [(bodyOf_frame hb).2.2.2.2.1]; exact hrun
        rw [if_neg (by rw [hur]; decide)] at h
        injection h with h
        exact .inr ⟨w, u, hw, hb, h.symm⟩

/-- A tick whose signals leave the core Running and whose fetch finds a word runs that word's instruction. -/
theorem tick_of_body_ok {ks : Vector Bool Config.nkeys} {es : List HostEvent} {s u : State} {w : Word}
    (hs : s.run ≠ .halted) (hr : (s.latch ks es).run = .running) (hf : (s.latch ks es).fetch = .ok w)
    (hb : bodyOf (decode w) (s.latch ks es).advancePc = .ok u) : tick ks es s = .next u.timerTick := by
  have hc : cycle (s.latch ks es) = .next u := by
    simp only [cycle, hf, execute_eq_finish]
    exact congrArg (finish (s.latch ks es)) hb
  have hur : u.run = .running := by rw [(bodyOf_frame hb).2.2.2.2.1]; exact hr
  rw [tick_of_not_halted hs]
  simp only [runTick, hr, cycles_one, hc, afterCycles]
  rw [if_neg (by rw [hur]; decide)]

theorem step_of_halted {s : State} (h : s.run = .halted) : step s = .next s := if_pos h

theorem step_of_not_halted {s : State} (h : s.run ≠ .halted) :
    step s = tick s.hostInput.keys s.hostInput.events s.dropInput := if_neg h

end Sys2Proof.Machine
end

