-- ==== Sys2Proof/Laws/Configured.lean ====
section
/-! SUPPORT. What the check of `REG_RESET = unwritten` rests on: an instruction's body reads no register but those of `readsV`
and `readsI`, and writes none but those of `writesV` and `writesI` (10_state.md R22, R24); and what a cycle with the check can
do. -/

namespace Sys2Proof.Machine

open Sys2Proof

variable {cfg : Config.Params}

/-- The state with other contents of V0 to VF and I. -/
def State.withRegs (s : State cfg) (v : Vector Byte Config.nregs) (i : Word) : State cfg := { s with v := v, i := i }

@[simp] theorem State.withRegs_mem (s : State cfg) (v : Vector Byte Config.nregs) (i : Word) : (s.withRegs v i).mem = s.mem := rfl
@[simp] theorem State.withRegs_v (s : State cfg) (v : Vector Byte Config.nregs) (i : Word) : (s.withRegs v i).v = v := rfl
@[simp] theorem State.withRegs_i (s : State cfg) (v : Vector Byte Config.nregs) (i : Word) : (s.withRegs v i).i = i := rfl
@[simp] theorem State.withRegs_run (s : State cfg) (v : Vector Byte Config.nregs) (i : Word) : (s.withRegs v i).run = s.run := rfl
@[simp] theorem State.withRegs_fetch (s : State cfg) (v : Vector Byte Config.nregs) (i : Word) :
    (s.withRegs v i).fetch = s.fetch := rfl

/-- A draw of no row reads nothing. -/
theorem drawRows_zero (m : Memory) (base base' y0 y0' x0 x0' r : Nat) (d : Drawing cfg) :
    drawRows m base y0 x0 0 r d = drawRows m base' y0' x0' 0 r d := rfl

/-- A body run with other contents in registers it does not read ends the same way, with what it wrote in the registers it
writes and the other contents kept in the rest. -/
theorem bodyOf_withRegs {i : Instr} {s : State cfg} {v : Vector Byte Config.nregs} {j : Word}
    (hv : ∀ r ∈ readsV i, v[r.val] = s.v[r.val]) (hi : readsI i = true → j = s.i) :
    (∀ e, bodyOf i s = .error e → bodyOf i (s.withRegs v j) = .error e) ∧
    ∀ u, bodyOf i s = .ok u → ∃ v' j', bodyOf i (s.withRegs v j) = .ok (u.withRegs v' j') ∧
      (∀ r : Reg, (r ∈ writesV i ∧ v'[r.val] = u.v[r.val]) ∨
        (r ∉ writesV i ∧ v'[r.val] = v[r.val] ∧ u.v[r.val] = s.v[r.val])) ∧
      ((writesI i = true ∧ j' = u.i) ∨ (writesI i = false ∧ j' = j ∧ u.i = s.i)) := by
  cases i
  case ret =>
    simp only [bodyOf, retBody]
    have hp : (s.withRegs v j).pop = match s.pop with
        | .ok (a, t) => .ok (a, t.withRegs v j) | .error e => .error e := by
      by_cases h : s.sp.val = 0 <;> simp [State.pop, State.withRegs, h]
    rw [hp]
    cases hs : s.pop with
    | error e => exact ⟨fun e' h => h, fun u h => (by cases h)⟩
    | ok p =>
      obtain ⟨a, t⟩ := p
      refine ⟨fun e' h => (by cases h), fun u h => ?_⟩
      injection h with h
      subst h
      have ht := (State.pop_eq_ok hs).2.2
      exact ⟨v, j, rfl, fun r => .inr ⟨by simp [writesV], rfl, by rw [ht]; rfl⟩, .inr ⟨rfl, rfl, by rw [ht]; rfl⟩⟩
  case call nnn =>
    simp only [bodyOf, callBody]
    have hp : (s.withRegs v j).push (s.withRegs v j).pc = match s.push s.pc with
        | .ok t => .ok (t.withRegs v j) | .error e => .error e := by
      by_cases h : s.sp.val < cfg.stackDepth <;> simp [State.push, State.withRegs, h]
    rw [hp]
    cases hs : s.push s.pc with
    | error e => exact ⟨fun e' h => h, fun u h => (by cases h)⟩
    | ok t =>
      refine ⟨fun e' h => (by cases h), fun u h => ?_⟩
      injection h with h
      subst h
      have ht := (State.push_eq_ok hs).2.2.2
      exact ⟨v, j, rfl, fun r => .inr ⟨by simp [writesV], rfl, by rw [ht]; rfl⟩, .inr ⟨rfl, rfl, by rw [ht]; rfl⟩⟩
  case seByte x nn =>
    have hx : (s.withRegs v j).equalsImm x nn = s.equalsImm x nn := by
      simp only [State.equalsImm, State.getV, State.withRegs_v, hv x (by simp [readsV])]
    refine ⟨fun e h => (by cases h), fun u h => ?_⟩
    injection h with h
    subst h
    refine ⟨v, j, ?_, fun r => .inr ⟨by simp [writesV], rfl, by split <;> rfl⟩, .inr ⟨rfl, rfl, by split <;> rfl⟩⟩
    simp only [bodyOf, hx]
    split <;> rfl
  case ldByte x nn =>
    refine ⟨fun e h => (by cases h), fun u h => ?_⟩
    injection h with h
    subst h
    refine ⟨v.set x.val nn, j, rfl, fun r => ?_, .inr ⟨rfl, rfl, rfl⟩⟩
    by_cases hr : r = x
    · subst hr; exact .inl ⟨by simp [writesV], by simp⟩
    · have hne : ¬ x.val = r.val := fun e => hr (Fin.ext e.symm)
      exact .inr ⟨by simp [writesV, hr], by simp [hne], by simp [hne]⟩
  case addByte x nn =>
    have hx := hv x (by simp [readsV])
    refine ⟨fun e h => (by cases h), fun u h => ?_⟩
    injection h with h
    subst h
    refine ⟨v.set x.val (s.getV x + nn), j, ?_, fun r => ?_, .inr ⟨rfl, rfl, rfl⟩⟩
    · simp only [bodyOf, State.getV, State.withRegs_v, hx]; rfl
    · by_cases hr : r = x
      · subst hr; exact .inl ⟨by simp [writesV], by simp⟩
      · have hne : ¬ x.val = r.val := fun e => hr (Fin.ext e.symm)
        exact .inr ⟨by simp [writesV, hr], by simp [hne], by simp [hne]⟩
  case ldI nnn =>
    refine ⟨fun e h => (by cases h), fun u h => ?_⟩
    injection h with h
    subst h
    exact ⟨v, address nnn, rfl, fun r => .inr ⟨by simp [writesV], rfl, rfl⟩, .inl ⟨rfl, rfl⟩⟩
  case drw x y n =>
    have hx : (s.withRegs v j).originX x = s.originX x := by
      simp only [State.originX, State.getV, State.withRegs_v, hv x (by simp [readsV])]
    have hy : (s.withRegs v j).originY y = s.originY y := by
      simp only [State.originY, State.getV, State.withRegs_v, hv y (by simp [readsV])]
    have hb : drwBody x y n (s.withRegs v j) =
        match drawRows s.mem s.i.toNat (s.originY y) (s.originX x) (spriteHeight n) 0 { fb := s.fb, flag := false } with
        | .ok d => .ok (((s.withRegs v j).setFb d.fb).setFlag d.flag)
        | .error e => .error e := by
      unfold drwBody
      rw [hx, hy]
      by_cases hn : n = 0
      · subst hn; rfl
      · rw [State.withRegs_i, hi (by simpa [readsI] using hn)]; rfl
    constructor
    · intro e h
      change drwBody x y n s = _ at h
      change drwBody x y n (s.withRegs v j) = _
      unfold drwBody at h
      rw [hb]
      cases hd : drawRows s.mem s.i.toNat (s.originY y) (s.originX x) (spriteHeight n) 0 { fb := s.fb, flag := false } with
      | error e' => rw [hd] at h; exact h
      | ok d => rw [hd] at h; cases h
    · intro u h
      obtain ⟨d, hd, rfl⟩ := drwBody_eq_ok (show drwBody x y n s = .ok u from h)
      refine ⟨v.set vf.val (flagByte d.flag), j, ?_, fun r => ?_, .inr ⟨rfl, rfl, rfl⟩⟩
      · change drwBody x y n (s.withRegs v j) = _
        rw [hb, hd]; rfl
      · by_cases hr : r = vf
        · subst hr; exact .inl ⟨by simp [writesV], by simp⟩
        · have hne : ¬ vf.val = r.val := fun e => hr (Fin.ext e.symm)
          exact .inr ⟨by simp [writesV, hr], by simp [hne], by simp [hne]⟩
  all_goals
    refine ⟨fun e h => (by cases h), fun u h => ?_⟩
    injection h with h
    subst h
    exact ⟨v, j, rfl, fun r => .inr ⟨by simp [writesV], rfl, rfl⟩, .inr ⟨rfl, rfl, rfl⟩⟩

/-! ## A cycle with the check -/

/-- The three outcomes of a cycle with the check: an error of the fetch or of the instruction, a refusal, or the instruction's
effect with the registers it writes marked. -/
theorem Tracked.cycle_cases (t : Tracked cfg) :
    (∃ e, t.state.fetch = .error e ∧ t.cycle = .next { t with state := t.state.takeError e }) ∨
    (∃ w, t.state.fetch = .ok w ∧ t.readable (decodeWith cfg.zeroFamilyMatch w) = false ∧
      t.cycle = .refused .unwrittenRegister) ∨
    (∃ w s, t.state.fetch = .ok w ∧ t.readable (decodeWith cfg.zeroFamilyMatch w) = true ∧
      execute (decodeWith cfg.zeroFamilyMatch w) t.state = .next s ∧
      t.cycle = if s.run = .halted then .next { t with state := s }
        else .next (t.mark (decodeWith cfg.zeroFamilyMatch w) s)) := by
  unfold Tracked.cycle
  cases hf : t.state.fetch with
  | error e => exact .inl ⟨e, rfl, rfl⟩
  | ok w =>
    cases hr : t.readable (decodeWith cfg.zeroFamilyMatch w) with
    | false => exact .inr (.inl ⟨w, rfl, hr, by simp only [hr, Bool.false_eq_true, if_false]⟩)
    | true =>
      obtain ⟨s, hs⟩ := execute_answers (decodeWith cfg.zeroFamilyMatch w) t.state
      exact .inr (.inr ⟨w, s, rfl, hr, hs, by simp only [hr, hs, if_true]⟩)

/-- A cycle that is not refused is the cycle without the check. -/
theorem Tracked.cycle_state {t u : Tracked cfg} (h : t.cycle = .next u) : Machine.cycle t.state = .next u.state := by
  rcases t.cycle_cases with ⟨e, hf, hc⟩ | ⟨w, -, -, hc⟩ | ⟨w, s, hf, -, hs, hc⟩
  · rw [hc] at h; injection h with h; subst h
    simp only [Machine.cycle, hf]
  · rw [hc] at h; cases h
  · rw [hc] at h
    simp only [Machine.cycle, hf, hs]
    split at h <;> (injection h with h; subst h; rfl)

/-- The registers an instruction writes count as written, and those that counted still do. -/
theorem Tracked.mark_vWritten (t : Tracked cfg) (i : Instr) (s : State cfg) (r : Reg) :
    (t.mark i s).vWritten[r.val] = true ↔ r ∈ writesV i ∨ t.vWritten[r.val] = true := by
  cases i <;> simp [Tracked.mark, writesV, Vector.getElem_set]
  all_goals simp only [Fin.ext_iff, eq_comm]

end Sys2Proof.Machine
end

