-- ==== Sys2Proof/Laws/Encoding.lean ====
section
/-! SUPPORT. The fields of a packed word, and a word as its packed fields (30_encoding.md R63, R71). -/

namespace Sys2Proof

/-! ## Fields of a packed word -/

@[simp] theorem fieldNNN_packNNN (f : Nibble) (a : Addr12) : fieldNNN (packNNN f a) = a := by
  simp only [fieldNNN, packNNN]
  apply BitVec.eq_of_toNat_eq
  simp only [BitVec.extractLsb'_toNat, BitVec.toNat_append, Nat.shiftRight_zero]
  rw [← Nat.shiftLeft_add_eq_or_of_lt a.isLt, Nat.shiftLeft_eq]
  omega

@[simp] theorem fieldFamily_packNNN (f : Nibble) (a : Addr12) : fieldFamily (packNNN f a) = f := by
  simp only [fieldFamily, packNNN]
  apply BitVec.eq_of_toNat_eq
  simp only [BitVec.extractLsb'_toNat, BitVec.toNat_append]
  rw [← Nat.shiftLeft_add_eq_or_of_lt a.isLt, Nat.shiftLeft_eq, Nat.shiftRight_eq_div_pow]
  omega

@[simp] theorem fieldX_packXNN (f : Nibble) (x : Reg) (b : Byte) : fieldX (packXNN f x b) = nibbleOf x := by
  simp only [fieldX, packXNN, packNNN]
  apply BitVec.eq_of_toNat_eq
  have hb := b.isLt
  have hx := (nibbleOf x).isLt
  have hxb := (nibbleOf x ++ b).isLt
  simp only [BitVec.extractLsb'_toNat, BitVec.toNat_append] at hxb ⊢
  rw [← Nat.shiftLeft_add_eq_or_of_lt hxb, ← Nat.shiftLeft_add_eq_or_of_lt hb, Nat.shiftLeft_eq, Nat.shiftLeft_eq,
    Nat.shiftRight_eq_div_pow]
  omega

@[simp] theorem fieldNN_packXNN (f : Nibble) (x : Reg) (b : Byte) : fieldNN (packXNN f x b) = b := by
  simp only [fieldNN, packXNN, packNNN]
  apply BitVec.eq_of_toNat_eq
  have hb := b.isLt
  have hxb := (nibbleOf x ++ b).isLt
  simp only [BitVec.extractLsb'_toNat, BitVec.toNat_append, Nat.shiftRight_zero] at hxb ⊢
  rw [← Nat.shiftLeft_add_eq_or_of_lt hxb, ← Nat.shiftLeft_add_eq_or_of_lt hb, Nat.shiftLeft_eq, Nat.shiftLeft_eq]
  omega

@[simp] theorem fieldFamily_packXNN (f : Nibble) (x : Reg) (b : Byte) : fieldFamily (packXNN f x b) = f :=
  fieldFamily_packNNN f _

@[simp] theorem fieldX_packXYN (f : Nibble) (x y : Reg) (n : Nibble) : fieldX (packXYN f x y n) = nibbleOf x :=
  fieldX_packXNN f x _

@[simp] theorem fieldFamily_packXYN (f : Nibble) (x y : Reg) (n : Nibble) : fieldFamily (packXYN f x y n) = f :=
  fieldFamily_packNNN f _

/-- The two low nibbles are the low byte's. -/
theorem fieldY_eq (w : Word) : fieldY w = (fieldNN w).extractLsb' 4 4 := by
  apply BitVec.eq_of_toNat_eq
  simp only [fieldY, fieldNN, BitVec.extractLsb'_toNat, Nat.shiftRight_eq_div_pow]
  omega

theorem fieldN_eq (w : Word) : fieldN w = (fieldNN w).extractLsb' 0 4 := by
  apply BitVec.eq_of_toNat_eq
  simp only [fieldN, fieldNN, BitVec.extractLsb'_toNat, Nat.shiftRight_zero]
  omega

@[simp] theorem fieldY_packXYN (f : Nibble) (x y : Reg) (n : Nibble) : fieldY (packXYN f x y n) = nibbleOf y := by
  rw [fieldY_eq, packXYN, fieldNN_packXNN]
  apply BitVec.eq_of_toNat_eq
  have hn := n.isLt
  have hy := (nibbleOf y).isLt
  simp only [BitVec.extractLsb'_toNat, BitVec.toNat_append]
  rw [← Nat.shiftLeft_add_eq_or_of_lt hn, Nat.shiftLeft_eq, Nat.shiftRight_eq_div_pow]
  omega

@[simp] theorem fieldN_packXYN (f : Nibble) (x y : Reg) (n : Nibble) : fieldN (packXYN f x y n) = n := by
  rw [fieldN_eq, packXYN, fieldNN_packXNN]
  apply BitVec.eq_of_toNat_eq
  have hn := n.isLt
  simp only [BitVec.extractLsb'_toNat, BitVec.toNat_append, Nat.shiftRight_zero]
  rw [← Nat.shiftLeft_add_eq_or_of_lt hn, Nat.shiftLeft_eq]
  omega

@[simp] theorem regOf_nibbleOf (r : Reg) : regOf (nibbleOf r) = r := rfl

@[simp] theorem nibbleOf_regOf (f : Nibble) : nibbleOf (regOf f) = f := rfl

/-! ## A word as its packed fields -/

theorem packNNN_fields (w : Word) : packNNN (fieldFamily w) (fieldNNN w) = w := by
  apply BitVec.eq_of_toNat_eq
  have h := (fieldNNN w).isLt
  simp only [packNNN, BitVec.toNat_append]
  rw [← Nat.shiftLeft_add_eq_or_of_lt h, Nat.shiftLeft_eq]
  simp only [fieldFamily, fieldNNN, BitVec.extractLsb'_toNat, Nat.shiftRight_eq_div_pow]
  have := w.isLt
  omega

theorem fieldNNN_eq_x_nn (w : Word) : nibbleOf (regOf (fieldX w)) ++ fieldNN w = fieldNNN w := by
  apply BitVec.eq_of_toNat_eq
  have h := (fieldNN w).isLt
  simp only [nibbleOf_regOf, BitVec.toNat_append]
  rw [← Nat.shiftLeft_add_eq_or_of_lt h, Nat.shiftLeft_eq]
  simp only [fieldX, fieldNN, fieldNNN, BitVec.extractLsb'_toNat, Nat.shiftRight_eq_div_pow]
  omega

theorem fieldNN_eq_y_n (w : Word) : nibbleOf (regOf (fieldY w)) ++ fieldN w = fieldNN w := by
  apply BitVec.eq_of_toNat_eq
  have h := (fieldN w).isLt
  simp only [nibbleOf_regOf, BitVec.toNat_append]
  rw [← Nat.shiftLeft_add_eq_or_of_lt h, Nat.shiftLeft_eq]
  simp only [fieldY, fieldN, fieldNN, BitVec.extractLsb'_toNat, Nat.shiftRight_eq_div_pow]
  omega

theorem packXNN_fields (w : Word) : packXNN (fieldFamily w) (regOf (fieldX w)) (fieldNN w) = w := by
  rw [packXNN, fieldNNN_eq_x_nn, packNNN_fields]

theorem packXYN_fields (w : Word) :
    packXYN (fieldFamily w) (regOf (fieldX w)) (regOf (fieldY w)) (fieldN w) = w := by
  rw [packXYN, fieldNN_eq_y_n, packXNN_fields]

/-! ## The family's four bits -/

/-- The four bits the decoder matches on are the family's. -/
theorem topBits_eq_family (w : Word) :
    w[15] = (fieldFamily w)[3] ∧ w[14] = (fieldFamily w)[2] ∧ w[13] = (fieldFamily w)[1] ∧ w[12] = (fieldFamily w)[0] := by
  simp [fieldFamily, BitVec.getElem_extractLsb']

/-- The decoder's choice, by the family of the word. -/
theorem decodeWith_of_family (m : Config.ZeroFamilyMatch) {w : Word} {f : Nibble} (h : fieldFamily w = f) :
    decodeWith m w =
      match f[3], f[2], f[1], f[0] with
      | false, false, false, false =>
        if isClsRest m (fieldNNN w) then .cls else if isRetRest m (fieldNNN w) then .ret else .nop0 (fieldNNN w)
      | false, false, false, true => .jp (fieldNNN w)
      | false, false, true, false => .call (fieldNNN w)
      | false, false, true, true => .seByte (regOf (fieldX w)) (fieldNN w)
      | false, true, false, false => .nop4 (fieldNNN w)
      | false, true, false, true => .nop5 (fieldNNN w)
      | false, true, true, false => .ldByte (regOf (fieldX w)) (fieldNN w)
      | false, true, true, true => .addByte (regOf (fieldX w)) (fieldNN w)
      | true, false, false, false => .nop8 (fieldNNN w)
      | true, false, false, true => .nop9 (fieldNNN w)
      | true, false, true, false => .ldI (fieldNNN w)
      | true, false, true, true => .nopB (fieldNNN w)
      | true, true, false, false => .nopC (fieldNNN w)
      | true, true, false, true => .drw (regOf (fieldX w)) (regOf (fieldY w)) (fieldN w)
      | true, true, true, false => .nopE (fieldNNN w)
      | true, true, true, true => .nopF (fieldNNN w) := by
  obtain ⟨h3, h2, h1, h0⟩ := topBits_eq_family w
  simp only [h] at h3 h2 h1 h0
  simp only [decodeWith, h3, h2, h1, h0] <;>
    cases f[3] <;> cases f[2] <;> cases f[1] <;> cases f[0] <;> rfl

/-- The family of a word is its number divided by 4096. -/
theorem fieldFamily_toNat (w : Word) : (fieldFamily w).toNat = w.toNat / 4096 := by
  have := w.isLt
  simp only [fieldFamily, BitVec.extractLsb'_toNat, Nat.shiftRight_eq_div_pow]
  omega

/-- The twelve low bits of a word are its number modulo 4096. -/
theorem fieldNNN_toNat (w : Word) : (fieldNNN w).toNat = w.toNat % 4096 := by
  simp only [fieldNNN, BitVec.extractLsb'_toNat, Nat.shiftRight_zero]

/-! ## Bytes -/

@[simp] theorem wordOfBytes_split (w : Word) : wordOfBytes (highByte w) (lowByte w) = w := by
  apply BitVec.eq_of_toNat_eq
  have h := (lowByte w).isLt
  simp only [wordOfBytes, BitVec.toNat_append]
  rw [← Nat.shiftLeft_add_eq_or_of_lt h, Nat.shiftLeft_eq]
  simp only [highByte, lowByte, BitVec.extractLsb'_toNat, Nat.shiftRight_eq_div_pow]
  have := w.isLt
  omega

theorem wordOfBytes_toNat (hi lo : Byte) : (wordOfBytes hi lo).toNat = hi.toNat * 256 + lo.toNat := by
  simp only [wordOfBytes, BitVec.toNat_append]
  rw [← Nat.shiftLeft_add_eq_or_of_lt lo.isLt, Nat.shiftLeft_eq]

end Sys2Proof
end

