-- ==== Sys2Proof/Laws/PerInstr.lean ====
section
/-! SUPPORT. Statements made of each instruction as syntax, one lemma per constructor. -/

namespace Sys2Proof.Laws.EncodeKind

open Sys2Proof

/-- The opcode map (30_encoding.md R66, R67) gives the word of an instruction that instruction's own tag. -/
def Statement (i : Instr) : Prop :=
  ∀ m : Config.ZeroFamilyMatch, i.wellFormedFor m = true → kindOf m (encode i) = i.kind

/-- The tag of a packed word, from the four bits of its family. -/
theorem kindOf_packNNN (m : Config.ZeroFamilyMatch) (f : Nibble) (a : Addr12) :
    kindOf m (packNNN f a) =
      match f[3], f[2], f[1], f[0] with
      | false, false, false, false => if isClsRest m a then .cls else if isRetRest m a then .ret else .nop
      | false, false, false, true => .jp
      | false, false, true, false => .call
      | false, false, true, true => .seByte
      | false, true, false, false => .nop
      | false, true, false, true => .nop
      | false, true, true, false => .ldByte
      | false, true, true, true => .addByte
      | true, false, false, false => .nop
      | true, false, false, true => .nop
      | true, false, true, false => .ldI
      | true, false, true, true => .nop
      | true, true, false, false => .nop
      | true, true, false, true => .drw
      | true, true, true, false => .nop
      | true, true, true, true => .nop := by
  obtain ⟨h3, h2, h1, h0⟩ := topBits_eq_family (packNNN f a)
  simp only [kindOf, h3, h2, h1, h0, fieldFamily_packNNN, fieldNNN_packNNN] <;>
    cases f[3] <;> cases f[2] <;> cases f[1] <;> cases f[0] <;> rfl

theorem cls : Statement .cls := fun m _ => by cases m <;> decide

theorem ret : Statement .ret := fun m _ => by cases m <;> decide

theorem jp (nnn : Addr12) : Statement (.jp nnn) := fun m _ => kindOf_packNNN m _ _

theorem call (nnn : Addr12) : Statement (.call nnn) := fun m _ => kindOf_packNNN m _ _

theorem seByte (x : Reg) (nn : Byte) : Statement (.seByte x nn) := fun m _ => kindOf_packNNN m _ _

theorem ldByte (x : Reg) (nn : Byte) : Statement (.ldByte x nn) := fun m _ => kindOf_packNNN m _ _

theorem addByte (x : Reg) (nn : Byte) : Statement (.addByte x nn) := fun m _ => kindOf_packNNN m _ _

theorem ldI (nnn : Addr12) : Statement (.ldI nnn) := fun m _ => kindOf_packNNN m _ _

theorem drw (x y : Reg) (n : Nibble) : Statement (.drw x y n) := fun m _ => kindOf_packNNN m _ _

theorem nop0 (rest : Addr12) : Statement (.nop0 rest) := by
  intro m h
  simp only [Instr.wellFormedFor, Bool.and_eq_true, Bool.not_eq_true'] at h
  rw [encode, kindOf_packNNN]
  simp [h.1, h.2, Instr.kind]

theorem nop4 (rest : Addr12) : Statement (.nop4 rest) := fun m _ => kindOf_packNNN m _ _

theorem nop5 (rest : Addr12) : Statement (.nop5 rest) := fun m _ => kindOf_packNNN m _ _

theorem nop8 (rest : Addr12) : Statement (.nop8 rest) := fun m _ => kindOf_packNNN m _ _

theorem nop9 (rest : Addr12) : Statement (.nop9 rest) := fun m _ => kindOf_packNNN m _ _

theorem nopB (rest : Addr12) : Statement (.nopB rest) := fun m _ => kindOf_packNNN m _ _

theorem nopC (rest : Addr12) : Statement (.nopC rest) := fun m _ => kindOf_packNNN m _ _

theorem nopE (rest : Addr12) : Statement (.nopE rest) := fun m _ => kindOf_packNNN m _ _

theorem nopF (rest : Addr12) : Statement (.nopF rest) := fun m _ => kindOf_packNNN m _ _

end Sys2Proof.Laws.EncodeKind
end

