-- ==== Sys2Proof/Laws/Run.lean ====
section
/-! SUPPORT. Runs: several steps are one step and then the others, a halted core stays as it is, and the host's own run is
this one. -/

namespace Sys2Proof.Machine

open Sys2Proof

@[simp] theorem runSteps_zero (s : State) : runSteps 0 s = .next s := rfl

theorem runSteps_succ {s t : State} (k : Nat) (h : step s = .next t) : runSteps (k + 1) s = runSteps k t := by
  simp only [runSteps, h]

theorem runSteps_of_halted {s : State} (h : s.run = .halted) (k : Nat) : runSteps k s = .next s := by
  induction k with
  | zero => rfl
  | succ k ih => rw [runSteps_succ k (step_of_halted h), ih]

/-- The host's run of any machine, one step at a time. -/
theorem run_of_next (M : Host.Core) {s t : M.State} (k : Nat) (h : M.step s = .next t) : M.run (k + 1) s = M.run k t := by
  rw [Host.Core.run, h]

theorem run_of_fault (M : Host.Core) {s : M.State} {e : M.Fault} (k : Nat) (h : M.step s = .fault e) :
    M.run (k + 1) s = .fault e := by rw [Host.Core.run, h]

theorem run_of_refused (M : Host.Core) {s : M.State} {e : M.Refusal} (k : Nat) (h : M.step s = .refused e) :
    M.run (k + 1) s = .refused e := by rw [Host.Core.run, h]

/-- The host's run of this machine is `runSteps`. -/
theorem core_run_eq_runSteps (k : Nat) (s : State) : Host.Core.run Sys2Proof.core k s = runSteps k s := by
  induction k generalizing s with
  | zero => rfl
  | succ k ih =>
    simp only [runSteps]
    split
    · rename_i t h; exact (run_of_next Sys2Proof.core k h).trans (ih t)
    · rename_i e h; exact run_of_fault Sys2Proof.core k h
    · rename_i e h; exact run_of_refused Sys2Proof.core k h

end Sys2Proof.Machine
end

