-- ==== Sys2Proof/Tests/Slice0.lean ====
section
/-! SUPPORT. The model's own tests. Each word is written out from its pattern in 30_encoding.md, each expected result is that
of 95_test_vectors.md (its number in the name or the docstring) or of the rule named. The second half shows, for each
statement with hypotheses, a state and operands that meet them. -/

namespace Sys2Proof.Tests

open Sys2Proof Sys2Proof.Machine

/-! ## Helpers -/

/-- The outcome is a next state that meets `p`. -/
def answers (o : Host.Outcome State Fault Refusal) (p : State → Bool) : Bool :=
  match o with
  | .next t => p t
  | .fault _ => false
  | .refused _ => false

theorem exists_of_answers {o : Host.Outcome State Fault Refusal} {p : State → Bool} (h : answers o p = true) :
    ∃ t, o = .next t ∧ p t = true := by
  cases o with
  | next t => exact ⟨t, rfl, h⟩
  | fault e => exact Bool.noConfusion h
  | refused e => exact Bool.noConfusion h

/-- The state after reset with `pc` moved and a word stored there. -/
def at' (pc : Nat) (w : Nat) : State :=
  { State.reset with pc := BitVec.ofNat 16 pc }.storeWordAtPc (BitVec.ofNat 16 w)

/-- Bytes stored from 0x300 on, `I` pointing at them, and V0 and V1 set. -/
def sprite (v0 v1 : Byte) (bytes : List Byte) (s : State) : State :=
  (({ s with mem := s.mem.writeBytes Config.reference 0x300 bytes }.setI 0x300).setV 0 v0).setV 1 v1

/-- Pixels turned on, each given as its column and its row. -/
def lit (pixels : List (Nat × Nat)) (s : State) : State :=
  s.setFb (pixels.foldl (fun fb p => fb.setPixel p.2 p.1 true) s.fb)

/-- The call stack holding `sp` copies of an address. -/
def stacked (sp : Fin 13) (a : Word) (s : State) : State := { s with sp := sp, stack := Vector.replicate _ a }

/-- What one tick is given. -/
def input (es : List HostEvent) : TickInput := { keys := Vector.replicate _ true, events := es }

/-! ## Decoding: words written out from the encodings -/

theorem test_decode_cls : decode 0b0000000011100000#16 = .cls := by decide
theorem test_decode_ret : decode 0b0000000011101110#16 = .ret := by decide
theorem test_decode_jp : decode (0b0001#4 ++ 0b001010100100#12) = .jp 0x2A4 := by decide
theorem test_decode_call : decode (0b0010#4 ++ 0b001100000000#12) = .call 0x300 := by decide
theorem test_decode_seByte : decode (0b0011#4 ++ 0b0011#4 ++ 0b00010000#8) = .seByte 3 0x10 := by decide
theorem test_decode_ldByte : decode (0b0110#4 ++ 0b1010#4 ++ 0b00000101#8) = .ldByte 10 0x05 := by decide
theorem test_decode_addByte : decode (0b0111#4 ++ 0b0011#4 ++ 0b00000010#8) = .addByte 3 0x02 := by decide
theorem test_decode_ldI : decode (0b1010#4 ++ 0b111111111111#12) = .ldI 0xFFF := by decide
theorem test_decode_drw : decode (0b1101#4 ++ 0b0111#4 ++ 0b1010#4 ++ 0b0011#4) = .drw 7 10 3 := by decide
theorem test_decode_nop0 : decode (0b0000#4 ++ 0b000111100000#12) = .nop0 0x1E0 := by decide
theorem test_decode_nop4 : decode (0b0100#4 ++ 0b101000010010#12) = .nop4 0xA12 := by decide
theorem test_decode_nop5 : decode (0b0101#4 ++ 0b000100100000#12) = .nop5 0x120 := by decide
theorem test_decode_nop8 : decode (0b1000#4 ++ 0b000100100011#12) = .nop8 0x123 := by decide
theorem test_decode_nop9 : decode (0b1001#4 ++ 0b000100100000#12) = .nop9 0x120 := by decide
theorem test_decode_nopB : decode (0b1011#4 ++ 0b000100100011#12) = .nopB 0x123 := by decide
theorem test_decode_nopC : decode (0b1100#4 ++ 0b000011111111#12) = .nopC 0x0FF := by decide
theorem test_decode_nopE : decode (0b1110#4 ++ 0b000110011110#12) = .nopE 0x19E := by decide
theorem test_decode_nopF : decode (0b1111#4 ++ 0b000000001010#12) = .nopF 0x00A := by decide

/-- T1: 0x01E0 and 0x0FEE under the low-byte reading, and the words beside CLS and RET. -/
theorem test_decode_zero_family :
    kindOf .lowByte 0x01E0 = .cls ∧ kindOf .lowByte 0x0FEE = .ret ∧ kindOf .exact 0x0FEE = .nop ∧
      decode 0x00E1 = .nop0 0x0E1 ∧ decode 0x00EF = .nop0 0x0EF ∧ decode 0x0000 = .nop0 0 := by decide

/-- X1, T1: every field of 0xD7A3. -/
theorem test_decode_record :
    decodeRecord .exact 0xD7A3 =
      { kind := .drw, opcode := 0xD7A3, family := 0xD, x := 0x7, y := 0xA, n := 0x3, nn := 0xA3, nnn := 0x7A3 } := by
  decide

/-- P3's listing and its bytes. -/
theorem test_assemble_p3 :
    assembleAll .exact [.ldI 0x20A, .ldByte 0 0x3C, .ldByte 1 0x00, .drw 0 1 1, .jp 0x208, .db 0xFF, .db 0x00] =
      some [0xA2, 0x0A, 0x60, 0x3C, 0x61, 0x00, 0xD0, 0x11, 0x12, 0x08, 0xFF, 0x00] := by decide

/-- R72's written form. -/
theorem test_asm_text :
    asmText (lineOf .exact 0x2300) = "CALL 0x300".toList ∧ asmText (lineOf .exact 0x7F02) = "ADD VF, 0x02".toList := by
  decide

/-! ## Well-formedness: the ill-formed terms are refused -/

theorem test_illformed_nop0_cls : (Instr.nop0 0x0E0).wellFormed = false := by decide
theorem test_illformed_nop0_ret : (Instr.nop0 0x0EE).wellFormed = false := by decide
theorem test_illformed_nop0_low_byte :
    (Instr.nop0 0x1E0).wellFormedFor .lowByte = false ∧ (Instr.nop0 0xFEE).wellFormedFor .lowByte = false := by decide

/-! ## Instructions, one step each -/

/-- T34. -/
theorem test_cls :
    answers (step ((lit [(0, 0), (63, 31), (10, 5)] (at' 0x200 0x00E0)).setV 15 0x33))
      (fun t => decide (t.fb = Framebuffer.blank) && t.getV 15 == 0x33 && t.pc == 0x202) = true := by decide

/-- T8: a full stack pops normally. -/
theorem test_ret :
    answers (step (stacked 12 0x2F0 (at' 0x400 0x00EE))) (fun t => t.pc == 0x2F0 && t.sp == 11) = true := by decide

/-- T7: StackUnderflow. -/
theorem test_ret_empty :
    step (at' 0x300 0x00EE) = .next { at' 0x300 0x00EE with run := .halted, err := .stackUnderflow } := rfl

/-- T4: an odd target. -/
theorem test_jp : answers (step (at' 0x200 0x1201)) (fun t => t.pc == 0x201 && decide (t.run = .running)) = true := by decide

/-- T10. -/
theorem test_call :
    answers (step (at' 0xFFE 0x2300)) (fun t => t.pc == 0x300 && t.sp == 1 && t.stack[0] == 0x1000) = true := by decide

/-- T9: StackOverflow. -/
theorem test_call_full :
    answers (step (stacked 12 0x202 (at' 0x400 0x2500)))
      (fun t => decide (t.run = .halted) && decide (t.err = .stackOverflow) && t.pc == 0x400 && t.sp == 12 &&
        decide (t.stack = Vector.replicate _ 0x202)) = true := by decide

/-- T11. -/
theorem test_se_taken : answers (step ((at' 0x204 0x3310).setV 3 0x10)) (fun t => t.pc == 0x208) = true := by decide

/-- T12. -/
theorem test_se_not_taken : answers (step ((at' 0x204 0x3311).setV 3 0x10)) (fun t => t.pc == 0x206) = true := by decide

/-- T16, with another register checked. -/
theorem test_ld_byte :
    answers (step (at' 0x200 0x653C)) (fun t => t.getV 5 == 0x3C && t.getV 4 == 0 && t.pc == 0x202) = true := by decide

/-- X8: the sum wraps and VF takes no carry. -/
theorem test_add_wraps :
    answers (step ((at' 0x200 0x7302).setV 3 0xFF)) (fun t => t.getV 3 == 0x01 && t.getV 15 == 0 && t.pc == 0x202) = true := by
  decide

/-- T20: the destination is VF. -/
theorem test_add_vf : answers (step ((at' 0x200 0x7F02).setV 15 0xFF)) (fun t => t.getV 15 == 0x01) = true := by decide

/-- T20b. -/
theorem test_ld_i : answers (step (at' 0x200 0xAFFF)) (fun t => t.i == 0x0FFF && t.pc == 0x202) = true := by decide

/-- T24: clipped at the right edge, not wrapped. -/
theorem test_drw_clips :
    answers (step (sprite 62 0 [0xC3] (at' 0x200 0xD011)))
      (fun t => decide (t.fb = (lit [(62, 0), (63, 0)] State.reset).fb) && t.getV 15 == 0) = true := by decide

/-- T27: all or nothing. -/
theorem test_drw_outside_memory :
    answers (step (lit [(1, 1)] (((at' 0x200 0xD012).setI 0xFFF).setV 15 7)))
      (fun t => decide (t.run = .halted) && decide (t.err = .memoryBounds) && t.pc == 0x200 && t.getV 15 == 7 &&
        decide (t.fb = (lit [(1, 1)] State.reset).fb)) = true := by decide

/-- T36 (family 8) and the other no-op families: nothing but `pc`. -/
theorem test_nop :
    [0x0123, 0x4A12, 0x5120, 0x8123, 0x9120, 0xB123, 0xC0FF, 0xE19E, 0xF00A].all (fun w =>
      answers (step ((at' 0x200 w).setV 1 1)) (fun t => t.pc == 0x202 && t.getV 1 == 1 && t.i == 0 && t.sp == 0)) = true := by
  decide

/-- T38 and T39: under the low-byte reading. -/
theorem test_zero_family_low_byte :
    answers (execute (decodeWith .lowByte 0x01E0) (lit [(0, 0)] State.reset)) (fun t => decide (t.fb = Framebuffer.blank)) = true ∧
      answers (execute (decodeWith .lowByte 0x0FEE) State.reset) (fun t => decide (t.err = .stackUnderflow)) = true := by decide

/-! ## The tick -/

/-- T41. -/
theorem test_timers : answers (step { at' 0x200 0x8123 with st := 2 }) (fun t => t.dt == 0 && t.st == 1 && t.toneOut) = true := by
  decide

/-- T44: an error skips the timer step. -/
theorem test_error_skips_timers :
    answers (step { at' 0x300 0x00EE with dt := 5, st := 1 }) (fun t => t.dt == 5 && t.st == 1) = true := by decide

/-- T48: the instruction runs in the tick that resumes. -/
theorem test_resume_runs :
    answers (step { at' 0x200 0x6A05 with run := .paused, inputs := [input [.togglePause]] })
      (fun t => decide (t.run = .running) && t.getV 10 == 0x05 && t.pc == 0x202) = true := by decide

/-- T51 and T57: Quit wins, and the cycle that would underflow never runs. -/
theorem test_quit :
    answers (step { at' 0x300 0x00EE with inputs := [input [.quit, .togglePause]] })
      (fun t => decide (t.run = .halted) && decide (t.err = .none) && t.pc == 0x300) = true := by decide

/-- T54. -/
theorem test_fetch_at_the_end :
    answers (step { State.reset with pc := 0xFFF }) (fun t => decide (t.err = .memoryBounds) && t.pc == 0xFFF) = true := by decide

/-- T61: a one-byte image; the first tick jumps to 0x200. -/
theorem test_one_byte_image :
    (match construct [0x12] with
      | .ok s => answers (step s) (fun t => t.pc == 0x200 && decide (t.run = .running))
      | .error _ => false) = true := by decide

/-- A word placed after reset, and in a Halted state whose `pc` no fetch can use. -/
theorem test_with_fetch_word :
    answers (step (State.reset.withFetchWord 16 0x653C)) (fun t => t.getV 5 == 0x3C && t.pc == 0x202) = true ∧
      answers (step ({ State.reset with run := .halted, pc := 0xFFFF }.withFetchWord 16 0x653C))
        (fun t => t.getV 5 == 0x3C && t.pc == 0x202) = true := by decide

/-- The sentence of 43_display.md R102 on the second draw's VF fails: the first draw composites a sprite bit of 1, on a pixel
that is on, and the second draw's VF is 0, as R99 says (notes/assumptions/27.md). -/
theorem test_r102_sentence_fails :
    answers (exec (.drw 0 1 1) (lit [(0, 0)] (sprite 0 0 [0x80] State.reset))) (fun t =>
      t.getV 15 == 1 && answers (exec (.drw 0 1 1) t) (fun u => u.getV 15 == 0)) = true := by decide

/-- It holds with a first VF of 1 where a bit of 1 met a pixel that was off: by R99, two bits of 1 over one pixel on and one
off leave the second of them on, which the second draw meets. -/
theorem test_r102_sentence_holds :
    answers (exec (.drw 0 1 1) (lit [(0, 0)] (sprite 0 0 [0xC0] State.reset))) (fun t =>
      t.getV 15 == 1 && answers (exec (.drw 0 1 1) t) (fun u => u.getV 15 == 1)) = true := by decide

/-! ## Other configurations (00_scope.md R6 to R8, 92_eei_decisions.md D7) -/

/-- Two instructions a tick, one stack slot, four columns, no font, the low-byte reading, registers unwritten at reset. -/
def small : Config.Params :=
  { memSize := 0x220, stackDepth := 1, fbW := 4, cyclesPerTick := 2, zeroFamilyMatch := .lowByte, regReset := .unwritten,
    fontBase := 0, fontData := [], font_fits := by decide }

/-- That configuration after construction, with a program. -/
def smallRun (rom : List Byte) : State small := { State.init small with mem := Memory.writeBytes small [] 0x200 rom }

/-- The outcome of a step with the check is a next state that meets `p`. -/
def trackedAnswers (o : Host.Outcome (Tracked small) Fault Refusal) (p : Tracked small → Bool) : Bool :=
  match o with
  | .next t => p t
  | .fault _ => false
  | .refused _ => false

/-- R8: LD V0, 1 and ADD V0, 2 in one tick, each register written before it is read. -/
theorem test_two_cycles :
    trackedAnswers (Tracked.step { Tracked.init small with state := smallRun [0x60, 0x01, 0x70, 0x02] })
      (fun t => t.state.getV 0 == 3 && t.state.pc == 0x204 && t.vWritten[0] && !t.vWritten[1]) = true := by decide

/-- D7, `unwritten`: SE V0 reads a register that nothing has written. -/
theorem test_unwritten_read : Tracked.cycle { Tracked.init small with state := smallRun [0x30, 0x00] } =
    .refused .unwrittenRegister := rfl

/-- D7, `unwritten`: DRW of no row does not read `I`. -/
theorem test_unwritten_index :
    Tracked.readable { Tracked.init small with vWritten := Vector.replicate _ true } (.drw 0 1 0) = true ∧
      Tracked.readable { Tracked.init small with vWritten := Vector.replicate _ true } (.drw 0 1 1) = false := by decide

/-- R92 with `STACK_DEPTH = 1`, R90 with the low-byte reading of 0x0AEE, in one tick. -/
theorem test_small_call_ret :
    (match tick (State.init small).keys [] (smallRun [0x22, 0x02, 0x0A, 0xEE]) with
      | .next t => t.pc == 0x202 && t.sp == 0
      | .fault _ => false
      | .refused _ => false) = true := by decide

/-! ## Witnesses: the statements' hypotheses are met -/

theorem witness_DecodedFieldsAreTheWordsBits : decodeRecord .lowByte 0xFFFF = decodeRecord .lowByte 0xFFFF := rfl

theorem witness_ZeroFamilyReadingsDiffer :
    kindOf .exact 0x01E0 ≠ kindOf .lowByte 0x01E0 ∧ kindOf .exact 0x0FEE ≠ kindOf .lowByte 0x0FEE ∧
      kindOf .exact 0x00E0 = kindOf .lowByte 0x00E0 := by decide

theorem witness_DecodingAnEncodedInstructionGivesItBack :
    (Instr.nop0 0xFEE).wellFormedFor .exact = true ∧ (Instr.nop0 0xFEF).wellFormedFor .lowByte = true ∧
      (Instr.drw 15 15 15).wellFormedFor .exact = true := by decide

theorem witness_AssemblingAWordsLineGivesItBack :
    0xFFF < 0x1000 ∧ 0xFF < 0x100 ∧ 0xF < 0x10 ∧ kindOf .exact 0x00E0 ≠ .nop ∧ kindOf .lowByte 0x0FEE ≠ .nop := by decide

theorem witness_MemoryReadIsBounded :
    (4095 < Config.reference.memSize ∧ State.reset.readByte 4095 = .ok 0) ∧
      (Config.reference.memSize ≤ 4096 ∧ State.reset.readByte 4096 = .error (.memoryBounds 4096)) :=
  ⟨⟨by decide, rfl⟩, by decide, rfl⟩

theorem witness_MemoryWriteWritesOneByte :
    Memory.wf Config.reference [(0x300, 7)] = true ∧ 4095 < Config.reference.memSize ∧ 0 < Config.reference.memSize ∧ 0 ≠ 4095 := by decide

theorem witness_EqualReadsMeanEqualMemories :
    ∃ m m' : Memory, m.wf Config.reference = true ∧ m'.wf Config.reference = true ∧
      ∀ a, a < Config.reference.memSize → m.byteAt Config.reference a = m'.byteAt Config.reference a :=
  ⟨[(0x300, 7)], [(0x300, 7)], by decide, by decide, fun _ _ => rfl⟩

theorem witness_ConstructionGivesTheResetTable :
    ∃ rom : List Byte, rom.length ≤ 3584 ∧ rom[3583]? = some 1 := by
  refine ⟨List.replicate 3584 1, ?_, ?_⟩
  · rw [List.length_replicate]
  · rw [List.getElem?_replicate]; rfl

theorem witness_ConstructionRefusesALongImage :
    (∃ rom : List Byte, 3584 < rom.length) ∧ ∃ rom : List Byte, rom.length ≤ 3584 ∧ 3584 ≤ rom.length :=
  ⟨⟨List.replicate 3585 0, by rw [List.length_replicate]; omega⟩,
    ⟨List.replicate 3584 0, by rw [List.length_replicate], by rw [List.length_replicate]⟩⟩

theorem witness_EmptyImageRunsNoOpsToTheEnd :
    ∃ ins : List TickInput, ins.length = 1793 ∧ ∀ inp ∈ ins, inp.events = [] := by
  refine ⟨List.replicate 1793 TickInput.idle, List.length_replicate, fun inp h => ?_⟩
  rw [List.eq_of_mem_replicate h]; rfl

theorem witness_FetchIsBigEndianAndBounded :
    (∃ s : State, 4096 ≤ s.pc.toNat) ∧ (∃ s : State, s.pc.toNat = 4095) ∧ ∃ s : State, s.pc.toNat < 4095 ∧ s.pc.toNat = 4094 :=
  ⟨⟨{ State.reset with pc := 4096 }, by decide⟩, ⟨{ State.reset with pc := 4095 }, by decide⟩,
    ⟨{ State.reset with pc := 4094 }, by decide⟩⟩

theorem witness_StepIsTheTickOfTheNextInput :
    ∃ (s : State) (inp : TickInput) (rest : List TickInput), s.inputs = inp :: rest ∧ s.run ≠ .halted :=
  ⟨{ State.reset with inputs := [input [.togglePause]] }, input [.togglePause], [], rfl, by decide⟩

theorem witness_StepRunsTheDecodedInstruction :
    ∃ (s p t : State) (inp : TickInput) (rest : List TickInput) (hi lo : Byte) (i : Instr),
      s.inputs = inp :: rest ∧ s.run ≠ .halted ∧
      p = { s with inputs := rest, keys := inp.keys, run := s.run.applyEvents inp.events } ∧ p.run = .running ∧
      p.readByte p.pc.toNat = .ok hi ∧ p.readByte (p.pc.toNat + 1) = .ok lo ∧
      decodeBytes [hi, lo] = .ok (i, []) ∧ exec i p = .next t := by
  let s : State := { at' 0x200 0x6A05 with run := .paused, inputs := [input [.togglePause]] }
  let p : State := { s with inputs := [], keys := (input [.togglePause]).keys, run := .running }
  obtain ⟨t, ht⟩ := exec_answers (.ldByte 10 0x05) p
  exact ⟨s, p, t, input [.togglePause], [], 0x6A, 0x05, .ldByte 10 0x05, rfl, by decide, rfl, rfl, rfl, rfl, rfl, ht⟩

theorem witness_FailedFetchHaltsTheCore :
    ∃ (s : State) (es : List HostEvent), s.run ≠ .halted ∧ s.run.applyEvents es = .running ∧ s.pc.toNat = 4095 :=
  ⟨{ State.reset with pc := 4095 }, [.togglePause, .togglePause], by decide, rfl, by decide⟩

theorem witness_CallPushesTheReturnAddress :
    (∃ s : State, s.sp.val < 12 ∧ s.sp.val = 11) ∧ (∃ s : State, s.sp.val = 12) :=
  ⟨⟨stacked 11 0 State.reset, by decide⟩, ⟨stacked 12 0 State.reset, by decide⟩⟩

theorem witness_RetPopsTheReturnAddress :
    (∃ s : State, 0 < s.sp.val ∧ s.sp.val = 1) ∧ (∃ s : State, 0 < s.sp.val ∧ s.sp.val = 12) ∧ ∃ s : State, s.sp.val = 0 :=
  ⟨⟨stacked 1 0 State.reset, by decide⟩, ⟨stacked 12 0 State.reset, by decide⟩, ⟨State.reset, rfl⟩⟩

/-- The words at the ends of each range, and a jump to its own address (T3). -/
theorem witness_JpSetsThePc :
    (0x1000 &&& 0xF000 = 0x1000 ∧ 0x1FFF &&& 0xF000 = 0x1000) ∧
      ∃ (nnn : Addr12) (s : State), s.fetch = .ok (encode (.jp nnn)) ∧ nnn.toNat = s.pc.toNat :=
  ⟨by decide, 0x208, at' 0x208 0x1208, rfl, by decide⟩

theorem witness_LdByteLoadsTheImmediate : 0x6000 &&& 0xF000 = 0x6000 ∧ 0x6FFF &&& 0xF000 = 0x6000 := by decide

theorem witness_AddByteAddsModulo256 : 0x7000 &&& 0xF000 = 0x7000 ∧ 0x7FFF &&& 0xF000 = 0x7000 := by decide

theorem witness_SeSkipsOnEquality :
    ∃ s : State, (s.getV 15).toNat = (0xFF : Byte).toNat ∧ (s.getV 15).toNat ≠ (0xFE : Byte).toNat :=
  ⟨State.reset.setV 15 0xFF, by decide⟩

theorem witness_CallThenRetComesBack : ∃ s : State, s.sp.val < 12 ∧ s.sp.val = 11 := ⟨stacked 11 0 State.reset, by decide⟩

theorem witness_PcAfterEachInstruction :
    (∃ s t : State, s.run = .running ∧ exec .ret s = .next t ∧ t.run = .halted) ∧
      ∃ s t : State, s.run = .running ∧ exec .ret s = .next t ∧ t.run = .running := by
  refine ⟨⟨State.reset, _, rfl, rfl, rfl⟩, ⟨stacked 1 0x202 State.reset, _, rfl, rfl, rfl⟩⟩

theorem witness_NopOnlyAdvancesThePc (rest : Addr12) :
    Instr.nopF rest ∈ [.nop0 rest, .nop4 rest, .nop5 rest, .nop8 rest, .nop9 rest, .nopB rest, .nopC rest, .nopE rest,
      .nopF rest] := by simp

theorem witness_DrwComposesTheSprite :
    ∃ s : State, s.spriteInMemory 1 2 ∧ s.rowsDrawn 1 2 = 1 ∧ s.i.toNat = 0xFFF ∧ s.colsDrawn 0 = 1 := by
  refine ⟨((State.reset.setI 0xFFF).setV 0 63).setV 1 31, ?_, by decide, by decide, by decide⟩
  have h : (((State.reset.setI 0xFFF).setV 0 63).setV 1 31).rowsDrawn 1 2 = 1 := by decide
  intro r hr
  rw [h] at hr
  have hi : (((State.reset.setI 0xFFF).setV 0 63).setV 1 31).i.toNat = 0xFFF := by decide
  rw [hi, Config.reference_memSize]
  omega

/-- The two clauses on VF: a drawn bit of 1 over a pixel that is on, and none (T31). -/
theorem witness_DrwComposesTheSprite_flag :
    (∃ s : State, s.rowsDrawn 1 1 = 1 ∧ s.colsDrawn 0 = 8 ∧ s.spriteAt 0 0 = true ∧ s.fb.pixel 0 0 = true) ∧
      ∃ s : State, s.rowsDrawn 1 1 = 1 ∧ s.colsDrawn 0 = 8 ∧ s.spriteAt 0 0 = false ∧ s.fb.pixel 0 0 = true :=
  ⟨⟨lit [(0, 0)] (sprite 0 0 [0x80] State.reset), by decide⟩, ⟨lit [(0, 0)] (sprite 0 0 [0x7F] State.reset), by decide⟩⟩

theorem witness_DrwOutsideMemoryHaltsTheCore :
    ∃ s : State, 1 < s.rowsDrawn 1 2 ∧ 4096 ≤ s.i.toNat + 1 ∧ ∀ q, q < 1 → s.i.toNat + q < 4096 := by
  refine ⟨State.reset.setI 0xFFF, by decide, by decide, fun q hq => ?_⟩
  have hi : (State.reset.setI 0xFFF).i.toNat = 0xFFF := by decide
  omega

theorem witness_DrwReadsOnlyItsDrawnRows :
    ∃ (s t : State) (m : Memory), m ≠ s.mem ∧
      (∀ r, r < s.rowsDrawn 1 1 → m.byteAt Config.reference (s.i.toNat + r) = s.byteAt (s.i.toNat + r)) ∧
      exec (.drw 0 1 1) s = .next t := by
  obtain ⟨t, ht⟩ := exec_answers (.drw 0 1 1) (sprite 0 0 [0x80] State.reset)
  refine ⟨sprite 0 0 [0x80] State.reset, t, [(0x300, 0x80), (0x301, 1)], by decide, fun r hr => ?_, ht⟩
  have h : (sprite 0 0 [0x80] State.reset).rowsDrawn 1 1 = 1 := by decide
  rw [h] at hr
  obtain rfl : r = 0 := by omega
  decide

theorem witness_DrawingTwiceRestoresTheScreen :
    (0 : Reg) ≠ 15 ∧ (1 : Reg) ≠ 15 ∧ ∃ s t : State, s.spriteInMemory 1 1 ∧ exec (.drw 0 1 1) s = .next t ∧
      t.getV 15 = 0 ∧ s.spriteAt 0 0 = true := by
  refine ⟨by decide, by decide, sprite 0 0 [0x80] State.reset, ?_⟩
  obtain ⟨t, ht, hv⟩ := exists_of_answers
    (show answers (exec (.drw 0 1 1) (sprite 0 0 [0x80] State.reset)) (fun t => t.getV 15 == 0) = true by decide)
  refine ⟨t, fun r hr => ?_, ht, by simpa using hv, by decide⟩
  have h : (sprite 0 0 [0x80] State.reset).rowsDrawn 1 1 = 1 := by decide
  rw [h] at hr
  have hi : (sprite 0 0 [0x80] State.reset).i.toNat = 0x300 := by decide
  rw [hi, Config.reference_memSize]
  omega

/-- T21, and the same with VF as the column. -/
theorem witness_DrawingTwiceRestoresTheScreen_vf :
    (∃ s t : State, s.spriteInMemory 0 1 ∧ exec (.drw 15 0 1) s = .next t) ∧
      ∃ s t : State, s.spriteInMemory 15 1 ∧ exec (.drw 0 15 1) s = .next t := by
  have hm : ∀ q : Reg, (sprite 0 0 [0x80] State.reset).spriteInMemory q 1 := by
    intro q r hr
    have hi : (sprite 0 0 [0x80] State.reset).i.toNat = 0x300 := by decide
    have h1 : r < 1 := Nat.lt_of_lt_of_le hr (Nat.min_le_left _ _)
    rw [hi, Config.reference_memSize]
    omega
  exact ⟨⟨_, _, hm 0, (exec_answers _ _).choose_spec⟩, ⟨_, _, hm 15, (exec_answers _ _).choose_spec⟩⟩

theorem witness_QuitHaltsWithoutACycle :
    ∃ (s : State) (es : List HostEvent), s.run ≠ .halted ∧ HostEvent.quit ∈ es :=
  ⟨State.reset, [.togglePause, .quit], by decide, by decide⟩

theorem witness_SignalsOfATickAct :
    HostEvent.quit ∈ [HostEvent.togglePause, .quit] ∧
      (HostEvent.quit ∉ [HostEvent.togglePause, .togglePause] ∧ [HostEvent.togglePause, .togglePause].length % 2 = 0) ∧
      HostEvent.quit ∉ [HostEvent.togglePause] ∧ [HostEvent.togglePause].length % 2 = 1 := by decide

theorem witness_PausedTickOnlyLatches :
    (∃ (s : State) (es : List HostEvent), s.run ≠ .halted ∧ s.run.applyEvents es = .paused ∧ s.run = .running) ∧
      ∃ (s : State) (es : List HostEvent), s.run ≠ .halted ∧ s.run.applyEvents es = .paused ∧ s.run = .paused :=
  ⟨⟨State.reset, [.togglePause], by decide⟩, ⟨{ State.reset with run := .paused }, [], by decide⟩⟩

theorem witness_HaltedIsTerminal :
    (∃ s t : State, s.run = .halted ∧ exec (.ldByte 0 1) s = .next t) ∧
      (∃ (s t : State) (ks : Vector Bool 16), s.run ≠ .halted ∧
        tick ks [.quit] s = .next t ∧ t.run = .halted) ∧
      ∃ (s t : State) (ks : Vector Bool 16), s.run ≠ .halted ∧
        tick ks [] s = .next t ∧ t.run = .halted ∧ t.err ≠ .none := by
  refine ⟨⟨{ State.reset with run := .halted }, _, rfl, rfl⟩, ⟨State.reset, _, State.reset.keys, by decide, rfl, rfl⟩, ?_⟩
  refine ⟨at' 0x300 0x00EE, _, State.reset.keys, by decide, rfl, rfl, by decide⟩

/-- T40 (Running) and T43 (Paused). -/
theorem witness_TimersCountRunningTicks :
    answers (tick State.reset.keys [] { at' 0x200 0x8123 with dt := 3, st := 1 })
        (fun t => decide (t.run = .running) && t.dt == 2 && t.st == 0) = true ∧
      answers (tick State.reset.keys [] { at' 0x200 0x8123 with dt := 5, st := 1, run := .paused })
        (fun t => decide (t.run ≠ .running) && t.dt == 5 && t.st == 1) = true := by decide

theorem witness_TimerReachesZeroInItsCount :
    ∃ s t : State, s.run = .running ∧ 2 ≤ s.inputs.length ∧ (∀ inp ∈ s.inputs, inp.events = []) ∧
      runSteps 2 s = .next t ∧ t.run = .running ∧ s.dt = 2 := by
  refine ⟨{ at' 0x200 0x1200 with dt := 2, inputs := [input [], input []] }, ?_⟩
  obtain ⟨t, ht, hr⟩ := exists_of_answers
    (show answers (runSteps 2 { at' 0x200 0x1200 with dt := 2, inputs := [input [], input []] })
      (fun t => decide (t.run = .running)) = true by decide)
  exact ⟨t, rfl, by decide, by decide, ht, by simpa using hr, rfl⟩

theorem witness_ErrorsArePrecise :
    ∃ (s t : State) (ks : Vector Bool 16) (es : List HostEvent), s.run ≠ .halted ∧ HostEvent.quit ∉ es ∧
      tick ks es s = .next t ∧ t.run = .halted :=
  ⟨at' 0x300 0x00EE, _, State.reset.keys, [.togglePause, .togglePause], by decide, by decide, rfl, rfl⟩

/-- A state after an error that meets the invariant. -/
theorem halted_inv : (State.reset.takeError .stackUnderflow).Inv :=
  { memory := rfl, index := by decide, counter := by decide, returns := fun k a h => absurd h (Nat.not_lt_zero k),
    latch := fun _ => rfl }

theorem witness_ErrorLatchIsWrittenOnce :
    (∃ s t : State, step s = .next t ∧ t.err ≠ s.err) ∧ ∃ s t : State, step s = .next t ∧ s.Inv ∧ s.err ≠ .none :=
  ⟨⟨at' 0x300 0x00EE, _, rfl, by decide⟩,
    ⟨State.reset.takeError .stackUnderflow, _, step_of_halted rfl, halted_inv, by decide⟩⟩

/-- T3. -/
theorem witness_SpinningCoreSpinsOn :
    (at' 0x208 0x1208).spinning ∧ (at' 0x208 0x1208).run.applyEvents [.togglePause, .togglePause] = .running :=
  ⟨⟨rfl, 0x208, rfl, by decide⟩, rfl⟩

theorem witness_PausingDoesNotChangeTheMachine :
    (at' 0x200 0x7001).run = .running ∧ (input [.togglePause]).events = [.togglePause] ∧
      ∀ inp ∈ [input [], input []], inp.events = [] := by decide

/-- Each clause's change happens. -/
theorem witness_OnlyTheNamedInstructionsWrite :
    answers (exec (.ldI 0x20A) State.reset) (fun t => decide (t.i ≠ State.reset.i)) = true ∧
      answers (exec (.drw 0 1 1) (sprite 0 0 [0x80] State.reset)) (fun t => decide (t.fb ≠ State.reset.fb)) = true ∧
      answers (exec (.call 0x300) State.reset) (fun t => decide (t.stack ≠ State.reset.stack) && t.sp == 1) = true ∧
      answers (exec (.ldByte 0 1) State.reset) (fun t => t.getV 0 == 1) = true ∧
      answers (exec (.addByte 15 1) State.reset) (fun t => t.getV 15 == 1) = true ∧
      answers (exec .ret State.reset) (fun t => decide (t.err ≠ State.reset.err)) = true := by decide

theorem witness_NoStepWritesMemory : ∃ t : State, step State.reset = .next t :=
  (exists_of_answers (p := fun _ => true) (show answers (step State.reset) (fun _ => true) = true by decide)).imp
    fun _ h => h.1

/-- Inside a subroutine, with `I` at its limit. -/
theorem witness_StepKeepsTheInvariant :
    ∃ s t : State, s.Inv ∧ s.sp.val = 1 ∧ s.i.toNat = 0xFFF ∧ step s = .next t := by
  let s : State := (stacked 1 0x202 (at' 0x300 0x00EE)).setI 0xFFF
  obtain ⟨t, ht, -⟩ := exists_of_answers (show answers (step s) (fun t => t.pc == 0x202) = true by decide)
  refine ⟨s, t, ?_, rfl, by decide, ht⟩
  refine { memory := by decide, index := by decide, counter := by decide, returns := ?_, latch := fun h => absurd rfl h }
  intro k a hk ha
  have hk0 : k = 0 := Nat.lt_one_iff.mp hk
  subst hk0
  have hs : s.stack[0]? = some 0x202 := by decide
  rw [hs] at ha
  injection ha with ha
  subst ha
  decide

theorem witness_ConstructionMeetsTheInvariant : ∃ s : State, construct [0x12, 0x00] = .ok s := ⟨_, rfl⟩

theorem witness_Reaches : ∃ s t : State, Reaches [0x12, 0x00] s ∧ Reaches [0x12, 0x00] t ∧ step s = .next t := by
  obtain ⟨s, hs⟩ := witness_ConstructionMeetsTheInvariant
  refine ⟨{ s with inputs := [input [.quit]] }, ?_⟩
  have hb : Reaches [0x12, 0x00] { s with inputs := [input [.quit]] } := .supplied (.built hs) _
  injection hs with hs
  subst hs
  exact ⟨_, hb, .stepped hb rfl, rfl⟩

theorem witness_ReachableMemoryIsTheImage :
    ([0x12, 0x00] : List Byte)[1]? = some 0x00 ∧ (0x1FF < 0x200 ∨ 0x200 + 2 ≤ 0x1FF) ∧ (0x202 < 0x200 ∨ 0x200 + 2 ≤ 0x202) := by
  decide

theorem witness_EvenTargetsKeepThePcEven :
    ∃ s t : State, s.evenAligned ∧ (∀ w, s.preCycle.fetch = .ok w → evenTarget (decode w)) ∧ step s = .next t := by
  obtain ⟨t, ht, -⟩ := exists_of_answers (show answers (step (at' 0x200 0x1208)) (fun t => t.pc == 0x208) = true by decide)
  refine ⟨at' 0x200 0x1208, t, ⟨by decide, fun k a h => absurd h (Nat.not_lt_zero k)⟩, fun w hw => ?_, ht⟩
  have hf : (at' 0x200 0x1208).preCycle.fetch = .ok 0x1208 := rfl
  rw [hf] at hw
  injection hw with hw
  subst hw
  have hd : decode 0x1208 = .jp 0x208 := by decide
  rw [hd]
  refine ⟨fun nnn h => ?_, fun nnn h => by cases h⟩
  injection h with h
  subst h
  decide

theorem witness_KeysAndTimersAreUnobservable : ∃ t : State, exec (.drw 0 1 1) (sprite 0 0 [0x80] State.reset) = .next t :=
  exec_answers _ _

theorem witness_StaleStackSlotsAreUnobservable :
    ∃ (s t : State) (other : Vector Word 12), (∀ k, k < s.sp.val → other[k]? = s.stack[k]?) ∧ other ≠ s.stack ∧
      step s = .next t := by
  obtain ⟨t, ht, -⟩ := exists_of_answers (show answers (step (at' 0x200 0x2300)) (fun t => t.sp == 1) = true by decide)
  exact ⟨at' 0x200 0x2300, t, Vector.replicate _ 7, fun k h => absurd h (Nat.not_lt_zero k), by decide, ht⟩

/-- A step with the check that is not refused, from a state with an unwritten register. -/
theorem witness_UnwrittenRegistersAreNeverRead :
    (∃ (t : Tracked small) (w : Word), t.state.fetch = .ok w ∧ t.readable (decodeWith small.zeroFamilyMatch w) = false) ∧
      trackedAnswers (Tracked.step { Tracked.init small with state := smallRun [0x60, 0x01, 0x70, 0x02] })
        (fun t => !t.vWritten[1] && !t.iWritten) = true :=
  ⟨⟨{ Tracked.init small with state := smallRun [0x30, 0x00] }, 0x3000, rfl, rfl⟩, by decide⟩

theorem witness_PlacedWordIsTheNextInstruction :
    (∃ s : State, s.mem.wf Config.reference = true ∧ s.run = .halted) ∧
      ∃ s : State, s.mem.wf Config.reference = true ∧ s.run.applyEvents s.hostInput.events = .running ∧ s.pc.toNat + 1 < 4096 ∧
        s.pc.toNat = 4094 :=
  ⟨⟨{ State.reset with run := .halted }, rfl, rfl⟩, ⟨{ State.reset with pc := 4094 }, rfl, rfl, by decide, by decide⟩⟩

end Sys2Proof.Tests
end

section
/-! The decoder's record against the word's bits (30_encoding.md R63, R71). -/

namespace Sys2Proof

/-- A field of `len` bits from bit `lo` up is the word shifted down by `lo` and masked to `len` bits: the form of R71. -/
theorem toNat_extractLsb'_eq_shiftRight_and (w : Word) (lo len : Nat) :
    (w.extractLsb' lo len).toNat = (w.toNat >>> lo) &&& (2 ^ len - 1) := by
  rw [BitVec.extractLsb'_toNat, Nat.and_two_pow_sub_one_eq_mod]

/-- The record keeps the whole word in `opcode`, so no two words share a record. -/
theorem decodeRecord_injective (m : Config.ZeroFamilyMatch) : Function.Injective (decodeRecord m) :=
  fun _ _ h => congrArg Decoded.opcode h

/-- Settles O1: each field is a bit range of the word, read as a shift and a mask, and `opcode` is the word itself. -/
theorem decodedFieldsAreTheWordsBits : Obligations.DecodedFieldsAreTheWordsBits := by
  intro m w
  have field := toNat_extractLsb'_eq_shiftRight_and w
  have hnnn : (decodeRecord m w).nnn.toNat = w.toNat &&& 0x0FFF := field 0 12
  have hnn : (decodeRecord m w).nn.toNat = w.toNat &&& 0x00FF := field 0 8
  have hn : (decodeRecord m w).n.toNat = w.toNat &&& 0x000F := field 0 4
  have hfamily : (decodeRecord m w).family.toNat = (w.toNat >>> 12) &&& 0xF := field 12 4
  have hx : (decodeRecord m w).x.toNat = (w.toNat >>> 8) &&& 0xF := field 8 4
  have hy : (decodeRecord m w).y.toNat = (w.toNat >>> 4) &&& 0xF := field 4 4
  exact ⟨hnnn, hnn, hn, hfamily, hx, hy, rfl, rfl, fun _ h => decodeRecord_injective m h⟩

end Sys2Proof
end

section
/-! A tick whose signals leave the core Paused (40_engine.md R79). -/

namespace Sys2Proof.Machine

variable {cfg : Config.Params}

/-- The latch writes the keys and the run state, and no other field. -/
theorem State.latch_changesOnly (s : State cfg) (ks : Vector Bool Config.nkeys) (es : List HostEvent) :
    s.changesOnly (s.latch ks es) [.keys, .run] := by
  intro f hf
  cases f with
  | keys | run => simp at hf
  | mem => exact State.readByte_congr (State.latch_mem s ks es)
  | v => exact State.getV_congr (State.latch_v s ks es)
  | i | pc | stack | sp | fb | dt | st | err | inputs => simp [State.agreesOn]

/-- What the host is shown depends on the framebuffer alone. -/
theorem State.fbOut_congr {s t : State cfg} (h : t.fb = s.fb) : t.fbOut = s.fbOut := by
  simp only [State.fbOut, h]

/-- A core that the signals leave Paused runs no cycle and no timer step. -/
theorem runTick_of_paused {s : State cfg} (h : s.run = .paused) : runTick s = .next s := by
  simp only [runTick, h]

/-- A tick whose signals leave the core Paused is the latch and nothing more. -/
theorem tick_of_paused {s : State cfg} {ks : Vector Bool Config.nkeys} {es : List HostEvent}
    (hs : s.run ≠ .halted) (hp : s.run.applyEvents es = .paused) : tick ks es s = .next (s.latch ks es) := by
  rw [tick_of_not_halted hs]
  exact runTick_of_paused hp

end Sys2Proof.Machine

namespace Sys2Proof

open Machine

/-- Settles O38: the tick is the latch alone, which writes the keys and the run state only. -/
theorem pausedTickOnlyLatches : Obligations.PausedTickOnlyLatches := by
  intro s ks es hs hp
  have hfb : (s.latch ks es).fbOut = s.fbOut := State.fbOut_congr (State.latch_fb s ks es)
  exact ⟨s.latch ks es, tick_of_paused hs hp, hp, State.latch_keys s ks es, hfb, s.latch_changesOnly ks es⟩

end Sys2Proof
end

section
/-! JP (41_control_flow.md R91), with the rules for `pc` and for a fetched word's cycle that it rests on. -/

namespace Sys2Proof

/-- A word's family read through the opcode table's mask `0xF000` (30_encoding.md R66). -/
theorem fieldFamily_eq_of_and {w : Word} {f : Nibble} (h : w.toNat &&& 0xF000 = f.toNat <<< 12) : fieldFamily w = f := by
  apply BitVec.eq_of_toNat_eq
  calc (fieldFamily w).toNat
      = (w.toNat >>> 12) &&& (0xF000 >>> 12) := toNat_extractLsb'_eq_shiftRight_and w 12 4
    _ = (f.toNat <<< 12) >>> 12 := by rw [← Nat.shiftRight_and_distrib, h]
    _ = f.toNat := Nat.shiftLeft_shiftRight _ _

/-- A word of family 1 is a JP, whichever way the zero family is read. -/
theorem decodeWith_of_family_one (m : Config.ZeroFamilyMatch) {w : Word} (h : fieldFamily w = 0x1#4) :
    decodeWith m w = .jp (fieldNNN w) :=
  decodeWith_of_family m h

theorem decodeWith_encode_jp (m : Config.ZeroFamilyMatch) (nnn : Addr12) : decodeWith m (encode (.jp nnn)) = .jp nnn := by
  rw [encode, decodeWith_of_family_one m (fieldFamily_packNNN _ _), fieldNNN_packNNN]

end Sys2Proof

namespace Sys2Proof.Machine

variable {cfg : Config.Params}

/-- Zero extension leaves the address as a number. -/
@[simp] theorem address_toNat (nnn : Addr12) : (address nnn).toNat = nnn.toNat :=
  BitVec.toNat_setWidth_of_le (by decide)

/-- Writing `pc` writes no other field. -/
theorem State.setPc_changesOnly (s : State cfg) (w : Word) : s.changesOnly (s.setPc w) [.pc] := by
  intro f hf
  cases f with
  | pc => simp at hf
  | mem => exact State.readByte_congr (State.setPc_mem s w)
  | v => exact State.getV_congr (State.setPc_v s w)
  | i | stack | sp | fb | keys | dt | st | run | err | inputs => simp [State.agreesOn]

@[simp] theorem State.setPc_self (s : State cfg) : s.setPc s.pc = s := rfl

/-- A JP is one write of `pc`: the advance past the instruction is overwritten. -/
theorem execute_jp (nnn : Addr12) (s : State cfg) : execute (.jp nnn) s = .next (s.setPc (address nnn)) := rfl

/-- The cycle of a word that was fetched is the execution of its instruction (40_engine.md R81). -/
theorem cycle_of_fetch {s : State cfg} {w : Word} (h : s.fetch = .ok w) :
    cycle s = execute (decodeWith cfg.zeroFamilyMatch w) s := by
  simp only [cycle, h]

end Sys2Proof.Machine

namespace Sys2Proof

open Machine

/-- Settles O21: a JP is one write of `pc`, which at its own target is the value already there. -/
theorem jpSetsThePc : Obligations.JpSetsThePc := by
  refine ⟨fun w hw => ?encoding, fun nnn s => ?effect, fun nnn s hfetch hself => ?selfJump⟩
  case encoding =>
    have hfamily : fieldFamily w = 0x1#4 := fieldFamily_eq_of_and hw
    exact ⟨decodeWith_of_family_one _ hfamily, toNat_extractLsb'_eq_shiftRight_and w 0 12⟩
  case effect =>
    have hexec : exec (.jp nnn) s = .next (s.setPc (address nnn)) := by rw [exec_eq_execute, execute_jp]
    exact ⟨_, hexec, address_toNat nnn, s.setPc_changesOnly _⟩
  case selfJump =>
    have htarget : address nnn = s.pc := BitVec.eq_of_toNat_eq ((address_toNat nnn).trans hself)
    rw [cycle_of_fetch hfetch, decodeWith_encode_jp, execute_jp, htarget, State.setPc_self]

end Sys2Proof
end

section
/-! LD Vx and ADD Vx (42_register_ops.md R94, R95): both read a register and an immediate from their word, and both are one
register write with `pc` past the instruction. -/

namespace Sys2Proof

/-! ## Their words -/

/-- The register operand is bits 11 to 8, as the opcode table writes them. -/
theorem regOf_fieldX_val (w : Word) : (regOf (fieldX w)).val = (w.toNat >>> 8) &&& 0xF :=
  toNat_extractLsb'_eq_shiftRight_and w 8 4

/-- The immediate is bits 7 to 0, as the opcode table writes them. -/
theorem fieldNN_toNat_eq_and (w : Word) : (fieldNN w).toNat = w.toNat &&& 0xFF :=
  toNat_extractLsb'_eq_shiftRight_and w 0 8

/-- A word of family 6 is an LD Vx, whichever way the zero family is read. -/
theorem decodeWith_of_family_six (m : Config.ZeroFamilyMatch) {w : Word} (h : fieldFamily w = 0x6#4) :
    decodeWith m w = .ldByte (regOf (fieldX w)) (fieldNN w) :=
  decodeWith_of_family m h

/-- A word of family 7 is an ADD Vx, whichever way the zero family is read. -/
theorem decodeWith_of_family_seven (m : Config.ZeroFamilyMatch) {w : Word} (h : fieldFamily w = 0x7#4) :
    decodeWith m w = .addByte (regOf (fieldX w)) (fieldNN w) :=
  decodeWith_of_family m h

end Sys2Proof

namespace Sys2Proof.Machine

variable {cfg : Config.Params}

/-! ## Frames -/

theorem State.agreesOn_trans {s t u : State cfg} {f : Field} (hst : s.agreesOn t f) (htu : t.agreesOn u f) :
    s.agreesOn u f := by
  cases f with
  | mem | v => exact fun a => (htu a).trans (hst a)
  | i | pc | stack | sp | fb | keys | dt | st | run | err | inputs => exact Eq.trans htu hst

/-- Two writes in a row change only what the later or the earlier one may change. -/
theorem State.changesOnly_trans {s t u : State cfg} {fs gs : List Field} (hst : s.changesOnly t fs)
    (htu : t.changesOnly u gs) : s.changesOnly u (gs ++ fs) := by
  intro f hf
  obtain ⟨hgs, hfs⟩ := not_or.mp (mt List.mem_append.mpr hf)
  exact State.agreesOn_trans (hst f hfs) (htu f hgs)

/-- Writing a general register writes no other field. -/
theorem State.setV_changesOnly (s : State cfg) (r : Reg) (b : Byte) : s.changesOnly (s.setV r b) [.v] := by
  intro f hf
  cases f with
  | v => simp at hf
  | mem => exact State.readByte_congr (State.setV_mem s r b)
  | i | pc | stack | sp | fb | keys | dt | st | run | err | inputs => simp [State.agreesOn]

/-- Moving `pc` past the instruction is a write of `pc`. -/
theorem State.advancePc_changesOnly (s : State cfg) : s.changesOnly s.advancePc [.pc] :=
  s.setPc_changesOnly (s.pc + 2)

/-! ## One register write -/

theorem State.getV_setV_same (s : State cfg) (r : Reg) (b : Byte) : (s.setV r b).getV r = b := by
  rw [State.getV_setV, if_pos rfl]

theorem State.getV_setV_of_ne (s : State cfg) {r q : Reg} (b : Byte) (h : q ≠ r) : (s.setV r b).getV q = s.getV q := by
  rw [State.getV_setV, if_neg h.symm]

/-- What an instruction does whose body is one register write: the register holds the value, `pc` is past the instruction
and nothing else changes. -/
theorem exec_of_body_setV {i : Instr} {s : State} {x : Reg} {b : Byte}
    (hbody : bodyOf i s.advancePc = .ok (s.advancePc.setV x b)) :
    ∃ t : State, exec i s = .next t ∧ t.getV x = b ∧ (∀ q, q ≠ x → t.getV q = s.getV q) ∧ t.pc = s.pc + 2 ∧
      s.changesOnly t [.v, .pc] :=
  ⟨s.advancePc.setV x b, exec_next_iff.mpr (.inl hbody), State.getV_setV_same _ x b,
    fun _ hq => State.getV_setV_of_ne _ b hq, rfl,
    State.changesOnly_trans s.advancePc_changesOnly (s.advancePc.setV_changesOnly x b)⟩

end Sys2Proof.Machine

namespace Sys2Proof

open Machine

/-- Settles O27: the word's family is 6, and LD Vx is one write of the immediate. -/
theorem ldByteLoadsTheImmediate : Obligations.LdByteLoadsTheImmediate := by
  refine ⟨fun w hw => ?encoding, fun x nn s => ?effect⟩
  case encoding =>
    have hfamily : fieldFamily w = 0x6#4 := fieldFamily_eq_of_and hw
    exact ⟨_, _, decodeWith_of_family_six _ hfamily, regOf_fieldX_val w, fieldNN_toNat_eq_and w⟩
  case effect => exact exec_of_body_setV rfl

/-- Settles O28: the word's family is 7, and ADD Vx is one write of the bytes' sum, which as a number is the sum mod 256. -/
theorem addByteAddsModulo256 : Obligations.AddByteAddsModulo256 := by
  refine ⟨fun w hw => ?encoding, fun x nn s => ?effect⟩
  case encoding =>
    have hfamily : fieldFamily w = 0x7#4 := fieldFamily_eq_of_and hw
    exact ⟨_, _, decodeWith_of_family_seven _ hfamily, regOf_fieldX_val w, fieldNN_toNat_eq_and w⟩
  case effect =>
    have hbody : bodyOf (.addByte x nn) s.advancePc = .ok (s.advancePc.setV x (s.getV x + nn)) := rfl
    obtain ⟨t, hexec, hsum, hothers, hpc, hframe⟩ := exec_of_body_setV hbody
    have hmod : (t.getV x).toNat = ((s.getV x).toNat + nn.toNat) % 256 := by rw [hsum, BitVec.toNat_add]
    exact ⟨t, hexec, hmod, hothers, hpc, hframe⟩

end Sys2Proof
end

section
/-! CLS (43_display.md R98): its words under both readings of the zero family, and its one write of the framebuffer. -/

namespace Sys2Proof

/-! ## Its words -/

/-- Under the low-byte reading the twelve low bits are a CLS by their low byte alone. -/
theorem setWidth_fieldNNN (w : Word) : (fieldNNN w).setWidth 8 = fieldNN w := by
  apply BitVec.eq_of_toNat_eq
  simp only [BitVec.toNat_setWidth, fieldNNN, fieldNN, BitVec.extractLsb'_toNat, Nat.shiftRight_zero]
  omega

theorem isClsRest_exact_iff (w : Word) : isClsRest .exact (fieldNNN w) = true ↔ fieldNNN w = 0x0E0#12 :=
  beq_iff_eq

theorem isClsRest_lowByte_iff (w : Word) : isClsRest .lowByte (fieldNNN w) = true ↔ fieldNN w = 0xE0#8 := by
  rw [isClsRest, beq_iff_eq, setWidth_fieldNNN]

/-- A word of family 0 is a CLS, a RET or a no-op by its twelve low bits (30_encoding.md R67). -/
theorem decodeWith_of_family_zero (m : Config.ZeroFamilyMatch) {w : Word} (h : fieldFamily w = 0x0#4) :
    decodeWith m w =
      if isClsRest m (fieldNNN w) then .cls else if isRetRest m (fieldNNN w) then .ret else .nop0 (fieldNNN w) :=
  decodeWith_of_family m h

/-- A word whose four top bits are clear is of family 0. -/
theorem fieldFamily_eq_zero_of_topBits {w : Word} (h3 : w[15] = false) (h2 : w[14] = false) (h1 : w[13] = false)
    (h0 : w[12] = false) : fieldFamily w = 0x0#4 := by
  obtain ⟨e3, e2, e1, e0⟩ := topBits_eq_family w
  apply BitVec.eq_of_getElem_eq
  intro k hk
  rw [BitVec.getElem_zero]
  match k, hk with
  | 0, _ => exact e0.symm.trans h0
  | 1, _ => exact e1.symm.trans h1
  | 2, _ => exact e2.symm.trans h2
  | 3, _ => exact e3.symm.trans h3

/-- No other family holds a CLS. -/
theorem fieldFamily_eq_zero_of_decodeWith_eq_cls {m : Config.ZeroFamilyMatch} {w : Word} (h : decodeWith m w = .cls) :
    fieldFamily w = 0x0#4 := by
  unfold decodeWith at h
  split at h
  next h3 h2 h1 h0 => exact fieldFamily_eq_zero_of_topBits h3 h2 h1 h0
  all_goals cases h

theorem decodeWith_eq_cls_iff (m : Config.ZeroFamilyMatch) (w : Word) :
    decodeWith m w = .cls ↔ fieldFamily w = 0x0#4 ∧ isClsRest m (fieldNNN w) = true := by
  constructor
  · intro h
    have hfamily := fieldFamily_eq_zero_of_decodeWith_eq_cls h
    rw [decodeWith_of_family_zero m hfamily] at h
    refine ⟨hfamily, ?_⟩
    split at h
    next hrest => exact hrest
    next => split at h <;> cases h
  · rintro ⟨hfamily, hrest⟩
    rw [decodeWith_of_family_zero m hfamily, if_pos hrest]

/-- A word as a number, from its family and its twelve low bits. -/
theorem toNat_eq_family_nnn (w : Word) : w.toNat = (fieldFamily w).toNat * 4096 + (fieldNNN w).toNat := by
  rw [fieldFamily_toNat, fieldNNN_toNat]
  omega

/-- The opcode table's mask `0xF0FF` keeps the family and the low byte. -/
theorem toNat_and_0xF0FF (w : Word) : w.toNat &&& 0xF0FF = (fieldFamily w).toNat * 4096 + (fieldNN w).toNat := by
  have hhigh : (w.toNat &&& 0xF0FF) / 2 ^ 12 = (fieldFamily w).toNat := by
    rw [Nat.and_div_two_pow, ← Nat.shiftRight_eq_div_pow]
    exact (toNat_extractLsb'_eq_shiftRight_and w 12 4).symm
  have hlow : (w.toNat &&& 0xF0FF) % 2 ^ 12 = (fieldNN w).toNat := by
    rw [fieldNN_toNat_eq_and, ← Nat.and_two_pow_sub_one_eq_mod, Nat.and_assoc]
    rfl
  omega

end Sys2Proof

namespace Sys2Proof.Machine

variable {cfg : Config.Params}

/-! ## Its effect -/

/-- Replacing the framebuffer writes no other field. -/
theorem State.setFb_changesOnly (s : State cfg) (g : Framebuffer cfg) : s.changesOnly (s.setFb g) [.fb] := by
  intro f hf
  cases f with
  | fb => simp at hf
  | mem => exact State.readByte_congr (State.setFb_mem s g)
  | v => exact State.getV_congr (State.setFb_v s g)
  | i | pc | stack | sp | keys | dt | st | run | err | inputs => simp [State.agreesOn]

/-- CLS blanks the framebuffer with `pc` past the instruction. -/
theorem exec_cls (s : State) : exec .cls s = .next (s.advancePc.setFb Framebuffer.blank) :=
  exec_next_iff.mpr (.inl rfl)

end Sys2Proof.Machine

namespace Sys2Proof

open Machine

/-- Settles O30: a word is a CLS by its family and its low bits, and CLS replaces the framebuffer by the blank one. -/
theorem clsClearsEveryPixel : Obligations.ClsClearsEveryPixel := by
  refine ⟨fun w => ?exact, fun w => ?lowByte, fun s => ?effect⟩
  case exact =>
    rw [decodeWith_eq_cls_iff, isClsRest_exact_iff, toNat_eq_family_nnn]
    bv_omega
  case lowByte =>
    rw [decodeWith_eq_cls_iff, isClsRest_lowByte_iff, toNat_and_0xF0FF]
    bv_omega
  case effect =>
    exact ⟨_, exec_cls s, fun y x _ _ => Framebuffer.pixel_blank y x, rfl,
      State.changesOnly_trans s.advancePc_changesOnly (s.advancePc.setFb_changesOnly _)⟩

end Sys2Proof
end

section
/-! The decoder, the encoder and the assembler (30_encoding.md R62 to R73). -/

namespace Sys2Proof

/-! ## Decoding an encoding -/

/-- A packed word of family 0 is read by its twelve low bits. -/
theorem decodeWith_packNNN_zero (m : Config.ZeroFamilyMatch) (rest : Addr12) :
    decodeWith m (packNNN 0x0#4 rest) =
      if isClsRest m rest then .cls else if isRetRest m rest then .ret else .nop0 rest := by
  rw [decodeWith_of_family_zero m (fieldFamily_packNNN _ _), fieldNNN_packNNN]

/-- The pattern of CLS is a CLS under both readings. -/
theorem decodeWith_encode_cls (m : Config.ZeroFamilyMatch) : decodeWith m (encode .cls) = .cls := by
  cases m <;> decide

/-- The pattern of RET is a RET under both readings. -/
theorem decodeWith_encode_ret (m : Config.ZeroFamilyMatch) : decodeWith m (encode .ret) = .ret := by
  cases m <;> decide

theorem wellFormedFor_nop0_iff (m : Config.ZeroFamilyMatch) (rest : Addr12) :
    (Instr.nop0 rest).wellFormedFor m = true ↔ isClsRest m rest = false ∧ isRetRest m rest = false := by
  simp [Instr.wellFormedFor]

theorem decodeWith_encode_nop0 {m : Config.ZeroFamilyMatch} {rest : Addr12}
    (h : (Instr.nop0 rest).wellFormedFor m = true) : decodeWith m (encode (.nop0 rest)) = .nop0 rest := by
  obtain ⟨hcls, hret⟩ := (wellFormedFor_nop0_iff m rest).mp h
  simp only [encode, decodeWith_packNNN_zero, hcls, hret, Bool.false_eq_true, if_false]

/-- Settles O5: the family of the packed word chooses the instruction's row, and the fields of the packed word are the
operands it was packed from. -/
theorem decodingAnEncodedInstructionGivesItBack : Obligations.DecodingAnEncodedInstructionGivesItBack := by
  intro m i hwf
  have family (f : Nibble) (a : Addr12) := decodeWith_of_family m (fieldFamily_packNNN f a)
  have familyXNN (f : Nibble) (x : Reg) (b : Byte) := decodeWith_of_family m (fieldFamily_packXNN f x b)
  have familyXYN (f : Nibble) (x y : Reg) (n : Nibble) := decodeWith_of_family m (fieldFamily_packXYN f x y n)
  cases i with
  | cls => exact decodeWith_encode_cls m
  | ret => exact decodeWith_encode_ret m
  | nop0 rest => exact decodeWith_encode_nop0 hwf
  | jp a | call a | ldI a | nop4 a | nop5 a | nop8 a | nop9 a | nopB a | nopC a | nopE a | nopF a =>
    simp [encode, family]
  | seByte x nn | ldByte x nn | addByte x nn => simp [encode, familyXNN]
  | drw x y n => simp [encode, familyXYN]

end Sys2Proof
end

section
/-! What a step can do (40_engine.md R74), and the invariant it keeps. -/

namespace Sys2Proof.Machine

variable {cfg : Config.Params}

/-- What a RET that succeeds writes. -/
theorem retBody_writes {s t : State cfg} (h : retBody s = .ok t) : t = { s with sp := t.sp, pc := t.pc } := by
  obtain ⟨-, -, ht⟩ := retBody_eq_ok h
  exact ht

/-- What a CALL that succeeds writes. -/
theorem callBody_writes {nnn : Addr12} {s t : State cfg} (h : callBody nnn s = .ok t) :
    t = { s with stack := t.stack, sp := t.sp, pc := address nnn } := by
  obtain ⟨-, -, -, ht⟩ := callBody_eq_ok h
  exact ht

/-- A step that starts Halted is the identity. Any other ends with the keys latched and the signals applied, or with an error
taken there, or with one instruction's body and the timer step. -/
theorem step_cases {s t : State} (h : step s = .next t) :
    (s.run = .halted ∧ t = s) ∨
    (s.run ≠ .halted ∧
      ((s.preCycle.run ≠ .running ∧ t = s.preCycle) ∨
       (s.preCycle.run = .running ∧ ∃ e, t = s.preCycle.takeError e) ∨
       (s.preCycle.run = .running ∧ ∃ w u, s.preCycle.fetch = .ok w ∧
          bodyOf (decode w) s.preCycle.advancePc = .ok u ∧ t = u.timerTick))) := by
  by_cases hs : s.run = .halted
  · rw [step_of_halted hs] at h
    injection h with h
    exact .inl ⟨hs, h.symm⟩
  · rw [step_of_not_halted hs] at h
    refine .inr ⟨hs, ?_⟩
    obtain ⟨hd, -⟩ | ⟨-, p, rfl, ⟨hp, ht⟩ | ⟨hp, ht⟩ | ⟨hp, hrun⟩⟩ := tick_cases h
    · exact absurd hd hs
    · exact .inl ⟨by rw [State.preCycle, hp]; decide, ht⟩
    · exact .inl ⟨by rw [State.preCycle, hp]; decide, ht⟩
    · obtain ⟨-, herr⟩ | hbody := hrun
      · exact .inr (.inl ⟨hp, herr⟩)
      · exact .inr (.inr ⟨hp, hbody⟩)

/-! ## The invariant, part by part -/

theorem address_le (nnn : Addr12) : (address nnn).toNat ≤ 0xFFF := by
  rw [address_toNat]
  omega

/-- The invariant speaks of no key, no timer, no pixel, no general register and no input. -/
theorem State.Inv.congr {s t : State} (h : s.Inv) (hmem : t.mem = s.mem) (hi : t.i = s.i) (hpc : t.pc = s.pc)
    (hstack : t.stack = s.stack) (hsp : t.sp = s.sp) (hlatch : t.err ≠ .none → t.run = .halted) : t.Inv where
  memory := hmem ▸ h.memory
  index := hi ▸ h.index
  counter := hpc ▸ h.counter
  returns := by rw [hstack, hsp]; exact h.returns
  latch := hlatch

theorem State.Inv.preCycle {s : State} (h : s.Inv) : s.preCycle.Inv := by
  refine h.congr rfl rfl rfl rfl rfl fun he => ?_
  have hrun : s.run = .halted := h.latch he
  simp [State.preCycle, hrun]

theorem State.Inv.takeError {s : State} (h : s.Inv) (e : RuntimeError) : (s.takeError e).Inv :=
  h.congr rfl rfl rfl rfl rfl fun _ => rfl

theorem State.Inv.timerTick {s : State} (h : s.Inv) : s.timerTick.Inv :=
  h.congr rfl rfl rfl rfl rfl h.latch

/-- A body that ran on a fetched word leaves `pc` at most four bytes past the last address a fetch can use. -/
theorem bodyOf_pc_le {i : Instr} {s t : State} (hs : s.Inv) (hfetch : s.pc.toNat + 1 < 4096)
    (h : bodyOf i s.advancePc = .ok t) : t.pc.toNat ≤ 4098 := by
  have hnext : s.advancePc.pc.toNat = s.pc.toNat + 2 := by rw [State.advancePc_pc]; bv_omega
  rcases bodyOf_pc h with hpc | hpc | ⟨nnn, -, hpc⟩ | ⟨-, hret⟩ | ⟨nnn, -, hcall⟩
  · rw [hpc]; omega
  · rw [hpc]; bv_omega
  · rw [hpc]
    have := address_le nnn
    omega
  · obtain ⟨hsp, htop, -⟩ := retBody_eq_ok hret
    have hlt : t.sp.val < s.sp.val := by rw [State.advancePc_sp] at hsp; omega
    have := (hs.returns t.sp.val t.pc hlt htop).2
    rw [Config.reference_memSize] at this
    omega
  · rw [callBody_writes hcall]
    have := address_le nnn
    simp only
    omega

/-- A body keeps every valid return address the address after some CALL. -/
theorem bodyOf_returns {i : Instr} {s t : State} (hs : s.Inv) (hfetch : s.pc.toNat + 1 < 4096)
    (h : bodyOf i s.advancePc = .ok t) {k : Nat} {a : Word} (hk : k < t.sp.val) (ha : t.stack[k]? = some a) :
    2 ≤ a.toNat ∧ a.toNat ≤ 4096 := by
  rcases bodyOf_stack h with ⟨hstack, hsp⟩ | ⟨-, hret⟩ | ⟨nnn, -, hcall⟩
  · rw [hsp] at hk
    rw [hstack] at ha
    exact hs.returns k a hk ha
  · obtain ⟨hsp, -, ht⟩ := retBody_eq_ok hret
    rw [ht] at ha
    rw [State.advancePc_sp] at hsp
    exact hs.returns k a (by omega) ha
  · obtain ⟨hsp, htop, hothers, -⟩ := callBody_eq_ok hcall
    simp only [State.advancePc_sp, State.advancePc_pc, State.advancePc_stack] at hsp htop hothers
    by_cases hkt : k = s.sp.val
    · rw [hkt, htop] at ha
      injection ha with ha
      subst ha
      constructor <;> bv_omega
    · rw [hothers k hkt] at ha
      exact hs.returns k a (by omega) ha

/-- An instruction that raises no error keeps the invariant. -/
theorem State.Inv.of_body {i : Instr} {s t : State} (hs : s.Inv) (hfetch : s.pc.toNat + 1 < 4096)
    (h : bodyOf i s.advancePc = .ok t) : t.Inv := by
  obtain ⟨hmem, -, -, -, hrun, herr, -⟩ := bodyOf_frame h
  exact {
    memory := by rw [hmem]; exact hs.memory
    index := by
      rcases bodyOf_i h with hi | ⟨nnn, -, hi⟩
      · rw [hi]; exact hs.index
      · rw [hi]; exact address_le nnn
    counter := bodyOf_pc_le hs hfetch h
    returns := fun _ _ => bodyOf_returns hs hfetch h
    latch := by rw [hrun, herr]; exact hs.latch }

end Sys2Proof.Machine

namespace Sys2Proof

open Machine

/-- Settles O49: the invariant passes from the state before the step to the state in which the cycle starts, and from there
to each end that a step has. -/
theorem stepKeepsTheInvariant : Obligations.StepKeepsTheInvariant := by
  intro s t hs hstep
  rcases step_cases hstep with ⟨-, rfl⟩ | ⟨-, ⟨-, rfl⟩ | ⟨-, e, rfl⟩ | ⟨-, w, u, hfetch, hbody, rfl⟩⟩
  · exact hs
  · exact hs.preCycle
  · exact hs.preCycle.takeError e
  · exact (hs.preCycle.of_body (State.fetch_eq_ok hfetch).1 hbody).timerTick

end Sys2Proof
end

section
/-! The tag of each word (30_encoding.md R66 to R68). -/

namespace Sys2Proof

/-! ## The opcode map as a table -/

/-- The opcode map by the family, and, in family 0, by whether the twelve low bits are a CLS and a RET. -/
def kindOfFamily (f : Nibble) (isCls isRet : Bool) : Kind :=
  match f[3], f[2], f[1], f[0] with
  | false, false, false, false => if isCls then .cls else if isRet then .ret else .nop
  | false, false, false, true => .jp
  | false, false, true, false => .call
  | false, false, true, true => .seByte
  | false, true, false, false => .nop
  | false, true, false, true => .nop
  | false, true, true, false => .ldByte
  | false, true, true, true => .addByte
  | true, false, false, false => .nop
  | true, false, false, true => .nop
  | true, false, true, false => .ldI
  | true, false, true, true => .nop
  | true, true, false, false => .nop
  | true, true, false, true => .drw
  | true, true, true, false => .nop
  | true, true, true, true => .nop

theorem kindOf_eq_kindOfFamily (m : Config.ZeroFamilyMatch) (w : Word) :
    kindOf m w = kindOfFamily (fieldFamily w) (isClsRest m (fieldNNN w)) (isRetRest m (fieldNNN w)) := by
  obtain ⟨h3, h2, h1, h0⟩ := topBits_eq_family w
  simp only [kindOf, kindOfFamily, h3, h2, h1, h0] <;> rfl

theorem kindOfFamily_eq_cls_iff :
    ∀ f c r, kindOfFamily f c r = .cls ↔ f.toNat = 0 ∧ c = true := by decide

theorem kindOfFamily_eq_ret_iff :
    ∀ f c r, kindOfFamily f c r = .ret ↔ f.toNat = 0 ∧ c = false ∧ r = true := by decide

/-- The families that are one instruction each, whatever the twelve low bits are. -/
theorem kindOfFamily_single :
    ∀ f c r, (kindOfFamily f c r = .jp ↔ f.toNat = 1) ∧ (kindOfFamily f c r = .call ↔ f.toNat = 2) ∧
      (kindOfFamily f c r = .seByte ↔ f.toNat = 3) ∧ (kindOfFamily f c r = .ldByte ↔ f.toNat = 6) ∧
      (kindOfFamily f c r = .addByte ↔ f.toNat = 7) ∧ (kindOfFamily f c r = .ldI ↔ f.toNat = 0xA) ∧
      (kindOfFamily f c r = .drw ↔ f.toNat = 0xD) := by decide

theorem kindOfFamily_eq_nop_iff :
    ∀ f c r, kindOfFamily f c r = .nop ↔ f.toNat ∈ [4, 5, 8, 9, 0xB, 0xC, 0xE, 0xF] ∨
      (f.toNat = 0 ∧ kindOfFamily f c r ≠ .cls ∧ kindOfFamily f c r ≠ .ret) := by decide

/-! ## The two readings of the zero family -/

theorem isRetRest_exact_iff (w : Word) : isRetRest .exact (fieldNNN w) = true ↔ fieldNNN w = 0x0EE#12 :=
  beq_iff_eq

theorem isRetRest_lowByte_iff (w : Word) : isRetRest .lowByte (fieldNNN w) = true ↔ fieldNN w = 0xEE#8 := by
  rw [isRetRest, beq_iff_eq, setWidth_fieldNNN]

/-- The twelve low bits of a word hold a number exactly when the word does modulo 4096. -/
theorem fieldNNN_eq_iff (w : Word) (a : Addr12) : fieldNNN w = a ↔ w.toNat % 4096 = a.toNat := by
  rw [← BitVec.toNat_inj, fieldNNN_toNat]

/-- The eight low bits of a word hold a number exactly when the word does modulo 256. -/
theorem fieldNN_eq_iff (w : Word) (b : Byte) : fieldNN w = b ↔ w.toNat % 256 = b.toNat := by
  rw [← BitVec.toNat_inj, fieldNN_toNat_eq_and]
  exact (Nat.and_two_pow_sub_one_eq_mod w.toNat 8).symm ▸ Iff.rfl

/-- What the two readings ask of the low bits, as numbers. -/
theorem isClsRest_toNat (w : Word) :
    (isClsRest .exact (fieldNNN w) = true ↔ w.toNat % 4096 = 0xE0) ∧
      (isClsRest .lowByte (fieldNNN w) = true ↔ w.toNat % 256 = 0xE0) :=
  ⟨(isClsRest_exact_iff w).trans (fieldNNN_eq_iff w _), (isClsRest_lowByte_iff w).trans (fieldNN_eq_iff w _)⟩

theorem isRetRest_toNat (w : Word) :
    (isRetRest .exact (fieldNNN w) = true ↔ w.toNat % 4096 = 0xEE) ∧
      (isRetRest .lowByte (fieldNNN w) = true ↔ w.toNat % 256 = 0xEE) :=
  ⟨(isRetRest_exact_iff w).trans (fieldNNN_eq_iff w _), (isRetRest_lowByte_iff w).trans (fieldNN_eq_iff w _)⟩

/-! ## Which words have which tag -/

theorem kindOf_eq_cls_iff (m : Config.ZeroFamilyMatch) (w : Word) :
    kindOf m w = .cls ↔ w.toNat / 4096 = 0 ∧ isClsRest m (fieldNNN w) = true := by
  rw [kindOf_eq_kindOfFamily, kindOfFamily_eq_cls_iff, fieldFamily_toNat]

theorem kindOf_eq_ret_iff (m : Config.ZeroFamilyMatch) (w : Word) :
    kindOf m w = .ret ↔ w.toNat / 4096 = 0 ∧ isClsRest m (fieldNNN w) = false ∧ isRetRest m (fieldNNN w) = true := by
  rw [kindOf_eq_kindOfFamily, kindOfFamily_eq_ret_iff, fieldFamily_toNat]

theorem kindOf_exact_eq_cls_iff (w : Word) : kindOf .exact w = .cls ↔ w.toNat = 0x00E0 := by
  rw [kindOf_eq_cls_iff, (isClsRest_toNat w).1]
  omega

theorem kindOf_exact_eq_ret_iff (w : Word) : kindOf .exact w = .ret ↔ w.toNat = 0x00EE := by
  rw [kindOf_eq_ret_iff, ← Bool.not_eq_true, (isClsRest_toNat w).1, (isRetRest_toNat w).1]
  omega

theorem kindOf_lowByte_eq_cls_iff (w : Word) :
    kindOf .lowByte w = .cls ↔ w.toNat / 4096 = 0 ∧ w.toNat % 256 = 0xE0 := by
  rw [kindOf_eq_cls_iff, (isClsRest_toNat w).2]

theorem kindOf_lowByte_eq_ret_iff (w : Word) :
    kindOf .lowByte w = .ret ↔ w.toNat / 4096 = 0 ∧ w.toNat % 256 = 0xEE := by
  rw [kindOf_eq_ret_iff, ← Bool.not_eq_true, (isClsRest_toNat w).2, (isRetRest_toNat w).2]
  omega

/-- Settles O2: the tag is a table of the family and of what the low bits are in family 0. -/
theorem kindFollowsTheOpcodeMap : Obligations.KindFollowsTheOpcodeMap := by
  intro w
  refine ⟨kindOf_exact_eq_cls_iff w, kindOf_exact_eq_ret_iff w, kindOf_lowByte_eq_cls_iff w,
    kindOf_lowByte_eq_ret_iff w, fun m => ?_⟩
  rw [kindOf_eq_kindOfFamily, ← fieldFamily_toNat]
  obtain ⟨hjp, hcall, hse, hld, hadd, hldI, hdrw⟩ := kindOfFamily_single (fieldFamily w) _ _
  exact ⟨hjp, hcall, hse, hld, hadd, hldI, hdrw, kindOfFamily_eq_nop_iff _ _ _⟩

/-- The tags of one family differ only by which of them is CLS and which RET. -/
theorem kindOfFamily_eq_iff : ∀ f c r c' r', kindOfFamily f c r = kindOfFamily f c' r' ↔
    (kindOfFamily f c r = .cls ↔ kindOfFamily f c' r' = .cls) ∧
      (kindOfFamily f c r = .ret ↔ kindOfFamily f c' r' = .ret) := by decide

/-- The readings differ exactly where the low byte alone is a CLS's or a RET's. -/
theorem kindOf_exact_ne_lowByte_iff (w : Word) :
    kindOf .exact w ≠ kindOf .lowByte w ↔
      w.toNat / 4096 = 0 ∧ 1 ≤ w.toNat / 256 ∧ (w.toNat % 256 = 0xE0 ∨ w.toNat % 256 = 0xEE) := by
  have heq : kindOf .exact w = kindOf .lowByte w ↔
      (kindOf .exact w = .cls ↔ kindOf .lowByte w = .cls) ∧ (kindOf .exact w = .ret ↔ kindOf .lowByte w = .ret) := by
    simp only [kindOf_eq_kindOfFamily]
    exact kindOfFamily_eq_iff _ _ _ _ _
  rw [ne_eq, heq, kindOf_exact_eq_cls_iff, kindOf_exact_eq_ret_iff, kindOf_lowByte_eq_cls_iff, kindOf_lowByte_eq_ret_iff]
  omega

/-- Settles O3: the readings differ on the words of family 0 with a CLS's or a RET's low byte and a non-zero X, and the exact
reading finds neither there. -/
theorem zeroFamilyReadingsDiffer : Obligations.ZeroFamilyReadingsDiffer := by
  intro w
  refine ⟨kindOf_exact_ne_lowByte_iff w, fun hne => ⟨fieldNNN w, ?_⟩⟩
  obtain ⟨hf, hx, -⟩ := (kindOf_exact_ne_lowByte_iff w).mp hne
  have hfamily : fieldFamily w = 0x0#4 := BitVec.eq_of_toNat_eq (by rw [fieldFamily_toNat, hf]; rfl)
  have hcls : ¬ isClsRest .exact (fieldNNN w) = true := by rw [(isClsRest_toNat w).1]; omega
  have hret : ¬ isRetRest .exact (fieldNNN w) = true := by rw [(isRetRest_toNat w).1]; omega
  rw [decode, Config.reference_zeroFamilyMatch, decodeWith_of_family_zero _ hfamily, if_neg hcls, if_neg hret]

end Sys2Proof
end

section
/-! Encoding what was decoded, and assembling a word's own line (30_encoding.md R69, R71 to R73). -/

namespace Sys2Proof

/-! ## Encoding a decoded word -/

theorem packNNN_of_family {w : Word} {f : Nibble} (h : fieldFamily w = f) : packNNN f (fieldNNN w) = w := by
  rw [← h, packNNN_fields]

theorem packXNN_of_family {w : Word} {f : Nibble} (h : fieldFamily w = f) :
    packXNN f (regOf (fieldX w)) (fieldNN w) = w := by
  rw [← h, packXNN_fields]

theorem packXYN_of_family {w : Word} {f : Nibble} (h : fieldFamily w = f) :
    packXYN f (regOf (fieldX w)) (regOf (fieldY w)) (fieldN w) = w := by
  rw [← h, packXYN_fields]

/-- The four top bits as the family's number. -/
theorem fieldFamily_of_topBits {w : Word} {b3 b2 b1 b0 : Bool} (h3 : w[15] = b3) (h2 : w[14] = b2) (h1 : w[13] = b1)
    (h0 : w[12] = b0) : fieldFamily w = BitVec.ofBoolListLE [b0, b1, b2, b3] := by
  obtain ⟨e3, e2, e1, e0⟩ := topBits_eq_family w
  rw [← h3, ← h2, ← h1, ← h0, e3, e2, e1, e0]
  generalize fieldFamily w = f
  decide +revert

/-- Every row but CLS's and RET's keeps all the bits of its word, under both readings. -/
theorem encode_decodeWith_or (m : Config.ZeroFamilyMatch) (w : Word) :
    decodeWith m w = .cls ∨ decodeWith m w = .ret ∨ encode (decodeWith m w) = w := by
  unfold decodeWith
  split <;> rename_i h3 h2 h1 h0 <;> have hf := fieldFamily_of_topBits h3 h2 h1 h0
  case h_1 =>
    split
    · exact .inl rfl
    · split
      · exact .inr (.inl rfl)
      · exact .inr (.inr (packNNN_of_family hf))
  case h_4 | h_7 | h_8 => exact .inr (.inr (packXNN_of_family hf))
  case h_14 => exact .inr (.inr (packXYN_of_family hf))
  all_goals exact .inr (.inr (packNNN_of_family hf))

/-- The instruction read from a word has the word's tag, under both readings. -/
theorem kind_decodeWith (m : Config.ZeroFamilyMatch) (w : Word) : (decodeWith m w).kind = kindOf m w := by
  unfold decodeWith
  split <;> rename_i h3 h2 h1 h0 <;> simp only [kindOf, h3, h2, h1, h0]
  case h_1 =>
    split
    · rfl
    · split <;> rfl
  all_goals rfl

theorem kindOf_of_decodeWith {m : Config.ZeroFamilyMatch} {w : Word} {i : Instr} (h : decodeWith m w = i) :
    kindOf m w = i.kind := by
  rw [← h, kind_decodeWith]

/-- The exact reading finds CLS and RET in one word each, so it keeps all the bits of every word. -/
theorem encode_decode (w : Word) : encode (decode w) = w := by
  rcases encode_decodeWith_or .exact w with h | h | h
  · have hw : w = 0x00E0#16 := BitVec.eq_of_toNat_eq ((kindOf_exact_eq_cls_iff w).mp (kindOf_of_decodeWith h))
    subst hw
    decide
  · have hw : w = 0x00EE#16 := BitVec.eq_of_toNat_eq ((kindOf_exact_eq_ret_iff w).mp (kindOf_of_decodeWith h))
    subst hw
    decide
  · exact h

/-- What a word decodes to is well-formed: a no-op of family 0 is what is left of CLS and RET. -/
theorem wellFormedFor_decodeWith (m : Config.ZeroFamilyMatch) (w : Word) : (decodeWith m w).wellFormedFor m = true := by
  unfold decodeWith
  split
  case h_1 =>
    split
    · rfl
    next hcls =>
      split
      · rfl
      next hret =>
        exact (wellFormedFor_nop0_iff m _).mpr
          ⟨Bool.eq_false_of_not_eq_true hcls, Bool.eq_false_of_not_eq_true hret⟩
  all_goals rfl

/-- Settles O4: each row keeps the bits of its word, and the rows are told apart by the tag. -/
theorem encodingADecodedWordGivesItBack : Obligations.EncodingADecodedWordGivesItBack :=
  fun w => ⟨encode_decode w, wellFormedFor_decodeWith _ w, kind_decodeWith _ w⟩

/-! ## Bytes -/

theorem highByte_toNat (w : Word) : (highByte w).toNat = w.toNat / 256 := by
  have := w.isLt
  simp only [highByte, BitVec.extractLsb'_toNat, Nat.shiftRight_eq_div_pow]
  omega

theorem lowByte_toNat (w : Word) : (lowByte w).toNat = w.toNat % 256 := by
  simp only [lowByte, BitVec.extractLsb'_toNat, Nat.shiftRight_zero]

@[simp] theorem highByte_wordOfBytes (hi lo : Byte) : highByte (wordOfBytes hi lo) = hi := by
  apply BitVec.eq_of_toNat_eq
  have := lo.isLt
  rw [highByte_toNat, wordOfBytes_toNat]
  omega

@[simp] theorem lowByte_wordOfBytes (hi lo : Byte) : lowByte (wordOfBytes hi lo) = lo := by
  apply BitVec.eq_of_toNat_eq
  have := lo.isLt
  rw [lowByte_toNat, wordOfBytes_toNat]
  omega

/-- Settles O8: two bytes are a word, and the encoding of what it decodes to is that word. -/
theorem everyBytePairIsAnInstruction : Obligations.EveryBytePairIsAnInstruction := by
  refine ⟨fun hi lo rest => ⟨decode (wordOfBytes hi lo), rfl, ?word, ?bytes⟩, rfl, fun _ => rfl⟩
  case word => rw [encode_decode, wordOfBytes_toNat]
  case bytes => rw [encodeBytes, encode_decode, highByte_wordOfBytes, lowByte_wordOfBytes]

/-- Settles O7: the decoder evaluated on each word. -/
theorem sampleWordsDecode : Obligations.SampleWordsDecode := by
  unfold Obligations.SampleWordsDecode
  decide

/-! ## The assembler -/

/-- A field's own number is in its range. -/
theorem inField_toNat {bits : Nat} (v : BitVec bits) (f : BitVec bits → List Byte) : inField bits v.toNat f = some (f v) := by
  rw [inField, if_pos v.isLt, BitVec.ofNat_toNat, BitVec.setWidth_eq]

theorem inField_of_le {bits v : Nat} (f : BitVec bits → List Byte) (h : 2 ^ bits ≤ v) : inField bits v f = none :=
  if_neg (Nat.not_lt.mpr h)

/-- The line `NOP w` of a word that is a no-op. -/
theorem assemble_nop_of_nop {m : Config.ZeroFamilyMatch} {w : Word} (h : kindOf m w = .nop) :
    assemble m (.nop w.toNat) = some (wordBytes w) := by
  rw [assemble, BitVec.ofNat_toNat, BitVec.setWidth_eq, if_pos h, inField_toNat]

/-- The line `NOP w` of any other word is refused (30_encoding.md R72). -/
theorem assemble_nop_of_ne_nop {m : Config.ZeroFamilyMatch} {w : Word} (h : kindOf m w ≠ .nop) :
    assemble m (.nop w.toNat) = none := by
  rw [assemble, BitVec.ofNat_toNat, BitVec.setWidth_eq, if_neg h]

/-- The line of a word in a row to which the low-byte reading gives several words: the mnemonic for the row's own word,
DW for the others. -/
theorem assemble_ite_dw {m : Config.ZeroFamilyMatch} {w : Word} {line : AsmLine} {i : Instr}
    (h : assemble m line = some (encodeBytes i)) :
    assemble m (if w = encode i then line else .dw w.toNat) = some (wordBytes w) := by
  split
  next hw => rw [h, hw]; rfl
  next => exact inField_toNat w wordBytes

/-- A word's own line: its operands' numbers are in their fields, and the encoder puts them back where they were. -/
theorem assemble_lineOf (m : Config.ZeroFamilyMatch) (w : Word) : assemble m (lineOf m w) = some (wordBytes w) := by
  have hkind := kind_decodeWith m w
  have hrow := encode_decodeWith_or m w
  unfold lineOf
  generalize decodeWith m w = i at hkind hrow
  cases i with
  | cls => exact assemble_ite_dw rfl
  | ret => exact assemble_ite_dw rfl
  | nop0 _ | nop4 _ | nop5 _ | nop8 _ | nop9 _ | nopB _ | nopC _ | nopE _ | nopF _ => exact assemble_nop_of_nop hkind.symm
  | _ =>
    have henc := (hrow.resolve_left (by simp)).resolve_left (by simp)
    simp only [assemble, inField_toNat, encodeBytes, henc, wordBytes]

/-- Settles O6: the numbers a line shows are those of fields, and a larger one is in no field. -/
theorem assemblingAWordsLineGivesItBack : Obligations.AssemblingAWordsLineGivesItBack := by
  refine ⟨assemble_lineOf, fun m addr h => ?addr, fun m x byte h => ?byte, fun m x y nibble h => ?nibble,
    fun m w h => assemble_nop_of_ne_nop h⟩
  case addr =>
    simp only [assemble]
    exact ⟨inField_of_le _ h, inField_of_le _ h, inField_of_le _ h⟩
  case byte =>
    simp only [assemble]
    exact ⟨inField_of_le _ h, inField_of_le _ h, inField_of_le _ h⟩
  case nibble =>
    simp only [assemble]
    exact inField_of_le _ h

end Sys2Proof
end

section
/-! Memory and construction (20_memory.md R48 to R57, 70_reset_and_hazards.md R124 to R126). -/

namespace Sys2Proof.Machine

variable {cfg : Config.Params}

/-! ## Equal reads -/

/-- A read depends on the byte at its address alone. -/
theorem Memory.read_congr {m m' : Memory} {a : Nat} (h : m.byteAt cfg a = m'.byteAt cfg a) : m.read cfg a = m'.read cfg a := by
  simp only [Memory.read, h]

/-- An address below every other listed one reads as listed, and not as the background. -/
theorem Memory.byteAt_head_ne_background {k : Nat} {b : Byte} {rest : Memory} (h : Memory.wf cfg ((k, b) :: rest) = true) :
    Memory.byteAt cfg ((k, b) :: rest) k ≠ Memory.background cfg k := by
  obtain ⟨-, hb, -, -⟩ := Memory.wf_cons.mp h
  rwa [Memory.byteAt_cons, if_pos rfl]

/-- A canonical memory reads as the background below its first listed address. -/
theorem Memory.byteAt_of_lt_head {k a : Nat} {b : Byte} {rest : Memory} (h : Memory.wf cfg ((k, b) :: rest) = true)
    (ha : a < k) : Memory.byteAt cfg ((k, b) :: rest) a = Memory.background cfg a := by
  obtain ⟨-, -, hgt, -⟩ := Memory.wf_cons.mp h
  refine Memory.byteAt_of_lt_all fun c hc => ?_
  rcases List.mem_cons.mp hc with rfl | hc
  · exact ha
  · exact Nat.lt_trans ha (hgt c hc)

/-- The canonical memories are told apart by their reads: the first listed address is the first that does not read as the
background. -/
theorem Memory.eq_of_byteAt_eq {m m' : Memory} (hm : m.wf cfg = true) (hm' : m'.wf cfg = true)
    (h : ∀ a, a < cfg.memSize → m.byteAt cfg a = m'.byteAt cfg a) : m = m' := by
  induction m generalizing m' with
  | nil =>
    cases m' with
    | nil => rfl
    | cons d' rest' =>
      have hk' := (Memory.wf_cons.mp hm').1
      exact absurd (h _ hk').symm (Memory.byteAt_head_ne_background hm')
  | cons d rest ih =>
    obtain ⟨k, b⟩ := d
    obtain ⟨hk, -, hgt, hrest⟩ := Memory.wf_cons.mp hm
    cases m' with
    | nil => exact absurd (h k hk) (Memory.byteAt_head_ne_background hm)
    | cons d' rest' =>
      obtain ⟨k', b'⟩ := d'
      obtain ⟨hk', -, hgt', hrest'⟩ := Memory.wf_cons.mp hm'
      rcases Nat.lt_trichotomy k k' with hlt | rfl | hlt
      · exact absurd ((h k hk).trans (Memory.byteAt_of_lt_head hm' hlt)) (Memory.byteAt_head_ne_background hm)
      · have hb : b = b' := by simpa only [Memory.byteAt_cons, if_true] using h k hk
        have htail : rest = rest' := by
          refine ih hrest hrest' fun a ha => ?_
          by_cases hka : k = a
          · subst hka
            rw [Memory.byteAt_of_lt_all hgt, Memory.byteAt_of_lt_all hgt']
          · simpa only [Memory.byteAt_cons, if_neg hka] using h a ha
        rw [hb, htail]
      · exact absurd ((h k' hk').symm.trans (Memory.byteAt_of_lt_head hm hlt)) (Memory.byteAt_head_ne_background hm')

/-! ## The state that construction answers -/

/-- The state after reset with an image written from `ENTRY` on. -/
def State.loaded (rom : List Byte) : State :=
  { State.reset with mem := Memory.writeBytes Config.reference [] 0x200 rom }

theorem construct_of_le {rom : List Byte} (h : rom.length ≤ 3584) : construct rom = .ok (State.loaded rom) :=
  if_neg (Nat.not_lt.mpr h)

theorem construct_of_gt {rom : List Byte} (h : 3584 < rom.length) : construct rom = .error .romTooLarge := if_pos h

/-- Construction answers one machine, when the image fits. -/
theorem construct_eq_ok {rom : List Byte} {s : State} (h : construct rom = .ok s) :
    rom.length ≤ 3584 ∧ s = State.loaded rom := by
  by_cases hlen : rom.length ≤ 3584
  · rw [construct_of_le hlen] at h
    injection h with h
    exact ⟨hlen, h.symm⟩
  · rw [construct_of_gt (Nat.lt_of_not_le hlen)] at h
    cases h

theorem State.readByte_loaded_inside {rom : List Byte} (hlen : rom.length ≤ 3584) {k : Nat} {b : Byte}
    (hk : rom[k]? = some b) : (State.loaded rom).readByte (0x200 + k) = .ok b := by
  obtain ⟨hlt, rfl⟩ := List.getElem?_eq_some_iff.mp hk
  have hsize : 0x200 + k < Config.reference.memSize := by rw [Config.reference_memSize]; omega
  refine (Memory.read_of_lt hsize).trans (congrArg Except.ok ?_)
  exact Memory.byteAt_writeBytes_inside rfl (by rw [Config.reference_memSize]; omega) hlt

theorem State.readByte_loaded_outside {rom : List Byte} {a : Nat} (h : a < 0x200 ∨ 0x200 + rom.length ≤ a) :
    (State.loaded rom).readByte a = State.reset.readByte a :=
  Memory.read_congr (Memory.byteAt_writeBytes_outside h)

/-- After reset an address below `MEM_SIZE` reads as the background. -/
theorem State.readByte_reset {a : Nat} (h : a < 4096) :
    State.reset.readByte a = .ok (Memory.background Config.reference a) :=
  Memory.read_of_lt h

theorem State.readByte_loaded_font {rom : List Byte} {k : Nat} {b : Byte} (hk : Config.reference.fontData[k]? = some b) :
    (State.loaded rom).readByte (Config.reference.fontBase + k) = .ok b := by
  obtain ⟨hlt, rfl⟩ := List.getElem?_eq_some_iff.mp hk
  have hfits := Config.reference.font_fits
  rw [Config.reference_entry] at hfits
  rw [State.readByte_loaded_outside (.inl (by omega)), State.readByte_reset (by omega), Memory.background_font hlt]

/-! ## The invariant at construction -/

/-- The invariant holds in a state of canonical memory that is otherwise the state after reset. -/
theorem State.Inv.of_reset {m : Memory} (hm : m.wf Config.reference = true) :
    ({ State.reset with mem := m } : State).Inv where
  memory := hm
  index := show State.reset.i.toNat ≤ 0xFFF by decide
  counter := show State.reset.pc.toNat ≤ 4098 by decide
  returns := fun k _ hk => absurd hk (Nat.not_lt_zero k)
  latch := fun h => absurd rfl h

theorem State.Inv.loaded {rom : List Byte} (hlen : rom.length ≤ 3584) : (State.loaded rom).Inv :=
  .of_reset (Memory.wf_writeBytes rfl (by rw [Config.reference_memSize]; omega))

end Sys2Proof.Machine

namespace Sys2Proof

open Machine

/-- Settles O9: the two cases of a read. -/
theorem memoryReadIsBounded : Obligations.MemoryReadIsBounded :=
  fun _ _ _ => ⟨fun h => Memory.read_of_lt h, fun h => Memory.read_of_le h⟩

/-- Settles O10: a write keeps the canonical form, in which what was written is read back. -/
theorem memoryWriteWritesOneByte : Obligations.MemoryWriteWritesOneByte :=
  fun _ _ _ _ hm ha => ⟨Memory.wf_write hm ha, Memory.byteAt_write_self hm, fun _ hc => Memory.byteAt_write_of_ne hc⟩

/-- Settles O11: the canonical memories are told apart by their reads. -/
theorem equalReadsMeanEqualMemories : Obligations.EqualReadsMeanEqualMemories :=
  fun _ _ _ hm hm' h => Memory.eq_of_byteAt_eq hm hm' h

/-- Settles O12: construction answers the state after reset with the image written to memory, outside the font. -/
theorem constructionGivesTheResetTable : Obligations.ConstructionGivesTheResetTable := by
  intro rom hlen
  have hzeros : ∀ a, a < 4096 → ¬ (0x200 ≤ a ∧ a < 0x200 + rom.length) →
      ¬ (Config.reference.fontBase ≤ a ∧ a < Config.reference.fontBase + Config.reference.fontData.length) →
      (State.loaded rom).readByte a = .ok 0 := by
    intro a ha himage hfont
    rw [State.readByte_loaded_outside (by omega), State.readByte_reset ha, Memory.background_outside_font (by omega)]
  have hv (r : Reg) : (State.loaded rom).getV r = 0 := Vector.getElem_replicate _
  have hpixel (y x : Nat) : (State.loaded rom).fb.pixel y x = false := Framebuffer.pixel_blank y x
  have hkeys (k : Nat) (hk : k < 16) : (State.loaded rom).keys[k]? = some false :=
    (Vector.getElem?_replicate ..).trans (if_pos hk)
  exact ⟨State.loaded rom, construct_of_le hlen, fun _ _ => State.readByte_loaded_inside hlen,
    fun _ _ => State.readByte_loaded_font, hzeros, hv, rfl, rfl, rfl, hpixel, hkeys, rfl, rfl, rfl, rfl⟩

/-- Settles O13: construction compares the image's length with `MAX_ROM` and does nothing else that can fail. -/
theorem constructionRefusesALongImage : Obligations.ConstructionRefusesALongImage :=
  fun _ => ⟨construct_of_gt, fun h => ⟨_, construct_of_le h⟩⟩

/-- Settles O50: an empty memory is canonical. -/
theorem resetMeetsTheInvariant : Obligations.ResetMeetsTheInvariant := State.Inv.of_reset rfl

/-- Settles O51: writing an image that fits keeps memory canonical. -/
theorem constructionMeetsTheInvariant : Obligations.ConstructionMeetsTheInvariant := by
  intro rom s h
  obtain ⟨hlen, rfl⟩ := construct_eq_ok h
  exact .loaded hlen

end Sys2Proof
end

section
/-! The fetch, the cycle and the step (40_engine.md R74, R78, R81 to R85). -/

namespace Sys2Proof.Machine

variable {cfg : Config.Params}

/-! ## The fetch -/

theorem State.fetch_of_outside {s : State cfg} (h : cfg.memSize ≤ s.pc.toNat) :
    s.fetch = .error (.memoryBounds s.pc.toNat) := by
  simp only [State.fetch, State.readByte, Memory.read_of_le h]

/-- At the last address the high byte exists and the low byte does not. -/
theorem State.fetch_at_end {s : State cfg} (h : s.pc.toNat + 1 = cfg.memSize) :
    s.fetch = .error (.memoryBounds cfg.memSize) := by
  have hhi : s.pc.toNat < cfg.memSize := by omega
  simp only [State.fetch, State.readByte, Memory.read_of_lt hhi, h, Memory.read_of_le (Nat.le_refl cfg.memSize)]

theorem State.fetch_of_readByte {s : State cfg} {hi lo : Byte} (hhi : s.readByte s.pc.toNat = .ok hi)
    (hlo : s.readByte (s.pc.toNat + 1) = .ok lo) : s.fetch = .ok (wordOfBytes hi lo) := by
  simp only [State.fetch, hhi, hlo]

theorem cycle_of_fetch_error {s : State cfg} {e : RuntimeError} (h : s.fetch = .error e) :
    cycle s = .next (s.takeError e) := by
  simp only [cycle, h]

/-! ## The tick and the step of a core that the signals leave Running -/

theorem afterCycles_next (t : State cfg) : afterCycles (.next t) = .next (if t.run = .halted then t else t.timerTick) := by
  by_cases h : t.run = .halted
  · simp only [afterCycles, if_pos h]
  · simp only [afterCycles, if_neg h]

theorem afterCycles_takeError (s : State cfg) (e : RuntimeError) :
    afterCycles (.next (s.takeError e)) = .next (s.takeError e) := by
  rw [afterCycles_next, if_pos (State.takeError_run s e)]

/-- A tick that runs its cycle is that cycle and then the timer step. -/
theorem tick_of_running {s : State} {ks : Vector Bool Config.nkeys} {es : List HostEvent} (hs : s.run ≠ .halted)
    (hp : s.run.applyEvents es = .running) : tick ks es s = afterCycles (cycle (s.latch ks es)) := by
  have hrun : (s.latch ks es).run = .running := hp
  simp only [tick_of_not_halted hs, runTick, hrun, cycles_one]

theorem step_of_running {s : State} (hs : s.run ≠ .halted) (hp : s.preCycle.run = .running) :
    step s = afterCycles (cycle s.preCycle) := by
  rw [step_of_not_halted hs]
  exact tick_of_running (s := s.dropInput) hs hp

theorem step_eq_runTick {s : State} (hs : s.run ≠ .halted) : step s = runTick s.preCycle :=
  (step_of_not_halted hs).trans (tick_of_not_halted (s := s.dropInput) hs)

/-- The state in which the cycle starts, when the host's next input is given. -/
theorem State.preCycle_of_inputs {s : State cfg} {inp : TickInput} {rest : List TickInput} (h : s.inputs = inp :: rest) :
    s.preCycle = { s with inputs := rest, keys := inp.keys, run := s.run.applyEvents inp.events } := by
  simp only [State.preCycle, State.latch, State.dropInput, State.hostInput, h, List.tail_cons, List.headD_cons]

/-- A step with the script's next input written out. -/
theorem step_with_inputs {s : State} (hs : s.run ≠ .halted) (inp : TickInput) (rest : List TickInput) :
    step { s with inputs := inp :: rest } =
      runTick { s with inputs := rest, keys := inp.keys, run := s.run.applyEvents inp.events } :=
  step_eq_runTick (s := { s with inputs := inp :: rest }) hs

/-- Every step answers a next state. -/
theorem step_answers (s : State) : ∃ t, step s = .next t := by
  by_cases hs : s.run = .halted
  · exact ⟨s, step_of_halted hs⟩
  · rw [step_of_not_halted hs]
    exact tick_answers _ _ _

end Sys2Proof.Machine

namespace Sys2Proof

open Machine

/-- Settles O15: the two reads of a fetch, each inside or outside memory. -/
theorem fetchIsBigEndianAndBounded : Obligations.FetchIsBigEndianAndBounded := by
  intro s
  refine ⟨fun h => State.fetch_of_outside h, fun h => State.fetch_at_end (by rw [h]), fun h => ?_⟩
  have hlo : s.pc.toNat + 1 < 4096 := by omega
  have hhi : s.pc.toNat < 4096 := by omega
  exact ⟨_, _, _, State.fetch_of_inside hlo, Memory.read_of_lt hhi, Memory.read_of_lt hlo, wordOfBytes_toNat _ _⟩

/-- Settles O16: the host's next input is the head of the list, and the tick gets the tail. -/
theorem stepIsTheTickOfTheNextInput : Obligations.StepIsTheTickOfTheNextInput := by
  intro s inp rest hin hs
  rw [step_of_not_halted hs]
  simp only [State.hostInput, State.dropInput, hin, List.headD_cons, List.tail_cons]

/-- Settles O17: the step is the cycle of the fetched word and then the timer step. -/
theorem stepRunsTheDecodedInstruction : Obligations.StepRunsTheDecodedInstruction := by
  intro s p t inp rest hi lo i hin hs hp hrun hhi hlo hdecode hexec
  have hpre : s.preCycle = p := (State.preCycle_of_inputs hin).trans hp.symm
  have hi : decode (wordOfBytes hi lo) = i := by
    injection hdecode with hpair
    exact congrArg Prod.fst hpair
  have hcycle : cycle p = .next t := by
    rw [cycle_of_fetch (State.fetch_of_readByte hhi hlo), ← hexec, exec_eq_execute, ← hi]
    rfl
  rw [step_of_running hs (by rw [hpre, hrun]), hpre, hcycle, afterCycles_next]

/-- Settles O18: at or above 4095 one of the fetch's two reads raises `MemoryBounds`, and the cycle takes it. -/
theorem failedFetchHaltsTheCore : Obligations.FailedFetchHaltsTheCore := by
  intro s ks es hs hrun hpc
  have hfetch : ∃ a, (s.latch ks es).fetch = .error (.memoryBounds a) := by
    rcases Nat.eq_or_lt_of_le hpc with heq | hlt
    · exact ⟨_, State.fetch_at_end (by rw [State.latch_pc, ← heq])⟩
    · exact ⟨_, State.fetch_of_outside hlt⟩
  obtain ⟨a, ha⟩ := hfetch
  rw [tick_of_running hs hrun, cycle_of_fetch_error ha, afterCycles_takeError]
  rfl

/-- Settles O19: a cycle is an instruction's body, which leaves RUN and ERR, or it takes an error. -/
theorem cycleEndsInAStateOrOneError : Obligations.CycleEndsInAStateOrOneError := by
  intro cfg s
  obtain ⟨t, ht⟩ := cycle_answers s
  refine ⟨t, ht, ?_⟩
  rcases cycle_cases ht with herr | ⟨w, -, hbody⟩
  · exact .inr herr
  · obtain ⟨-, -, -, -, hrun, herr, -⟩ := bodyOf_frame hbody
    exact .inl ⟨hrun, herr⟩

/-- Settles O20: a tick answers a next state, and a Halted step is the identity. -/
theorem stepAlwaysAnswersNext : Obligations.StepAlwaysAnswersNext := step_answers

end Sys2Proof
end

section
/-! Signals, the run state, the timers and the error latch over a tick (40_engine.md R74 to R80, R87, R88,
60_exceptions.md R107, R116). -/

namespace Sys2Proof.Machine

variable {cfg : Config.Params}

/-- Naming more fields says less. -/
theorem State.changesOnly_mono {s t : State cfg} {fs gs : List Field} (h : s.changesOnly t fs) (hsub : fs ⊆ gs) :
    s.changesOnly t gs :=
  fun f hf => h f fun hmem => hf (hsub hmem)

/-! ## Signals -/

@[simp] theorem RunState.event_togglePause_twice (r : RunState) : (r.event .togglePause).event .togglePause = r := by
  cases r <;> rfl

theorem RunState.event_eq_halted_iff (r : RunState) (e : HostEvent) : r.event e = .halted ↔ r = .halted ∨ e = .quit := by
  cases r <;> cases e <;> decide

/-- The signals lead to Halted by a Quit, or from Halted. -/
theorem RunState.applyEvents_eq_halted_iff (r : RunState) (es : List HostEvent) :
    r.applyEvents es = .halted ↔ r = .halted ∨ .quit ∈ es := by
  induction es generalizing r with
  | nil => simp
  | cons e es ih => rw [applyEvents_cons, ih, event_eq_halted_iff, List.mem_cons, or_assoc, eq_comm (a := e)]

theorem HostEvent.eq_togglePause {e : HostEvent} (h : e ≠ .quit) : e = .togglePause := by
  cases e with
  | quit => exact absurd rfl h
  | togglePause => rfl

/-- Without a Quit the signals are toggles, and two of them cancel. -/
theorem RunState.applyEvents_of_not_quit (r : RunState) {es : List HostEvent} (h : .quit ∉ es) :
    (es.length % 2 = 0 → r.applyEvents es = r) ∧ (es.length % 2 = 1 → r.applyEvents es = r.event .togglePause) := by
  induction es generalizing r with
  | nil => exact ⟨fun _ => rfl, fun hodd => by simp at hodd⟩
  | cons e es ih =>
    obtain ⟨he, hes⟩ := List.ne_and_not_mem_of_not_mem_cons h
    obtain ⟨heven, hodd⟩ := ih (r.event .togglePause) hes
    rw [List.length_cons, applyEvents_cons, HostEvent.eq_togglePause he.symm]
    exact ⟨fun hlen => (hodd (by omega)).trans (event_togglePause_twice r), fun hlen => heven (by omega)⟩

theorem RuntimeError.latch_ne_none (e : RuntimeError) : e.latch ≠ .none := by cases e <;> simp [latch]

/-! ## The ends of a tick -/

/-- A tick that ends in an error latched the keys, applied the signals and took the error, which its cycle answered. -/
theorem tick_ends_halted {ks : Vector Bool Config.nkeys} {es : List HostEvent} {s t : State} (hs : s.run ≠ .halted)
    (hquit : .quit ∉ es) (h : tick ks es s = .next t) (ht : t.run = .halted) :
    s.run.applyEvents es = .running ∧ cycle (s.latch ks es) = .next t ∧ ∃ e, t = (s.latch ks es).takeError e := by
  rcases tick_cases h with ⟨hd, -⟩ | ⟨-, p, rfl, ⟨hp, -⟩ | ⟨hp, rfl⟩ | ⟨hp, ⟨hcycle, herr⟩ | ⟨w, u, -, hbody, rfl⟩⟩⟩
  · exact absurd hd hs
  · exact absurd ((RunState.applyEvents_eq_halted_iff _ _).mp hp) (by simp [hs, hquit])
  · exact absurd (hp.symm.trans ht) (by decide)
  · exact ⟨hp, hcycle, herr⟩
  · obtain ⟨-, -, -, -, hrun, -, -⟩ := bodyOf_frame hbody
    have hu : u.run = .running := hrun.trans hp
    exact absurd (hu.symm.trans ht) (by decide)

/-- A tick counts both timers when it ends Running, and otherwise leaves them. -/
theorem tick_timers {ks : Vector Bool Config.nkeys} {es : List HostEvent} {s t : State} (hs : s.run ≠ .halted)
    (h : tick ks es s = .next t) :
    (t.run = .running ∧ t.dt = countDown s.dt ∧ t.st = countDown s.st) ∨
      (t.run ≠ .running ∧ t.dt = s.dt ∧ t.st = s.st) := by
  rcases tick_cases h with ⟨hd, -⟩ | ⟨-, p, rfl, ⟨hp, rfl⟩ | ⟨hp, rfl⟩ | ⟨hp, ⟨-, e, rfl⟩ | ⟨w, u, -, hbody, rfl⟩⟩⟩
  · exact absurd hd hs
  · exact .inr ⟨by rw [hp]; decide, rfl, rfl⟩
  · exact .inr ⟨by rw [hp]; decide, rfl, rfl⟩
  · exact .inr ⟨by rw [State.takeError_run]; decide, rfl, rfl⟩
  · obtain ⟨-, -, hdt, hst, hrun, -, -⟩ := bodyOf_frame hbody
    exact .inl ⟨hrun.trans hp, congrArg countDown hdt, congrArg countDown hst⟩

/-! ## The inputs of a run -/

/-- A tick takes nothing from the script. -/
theorem tick_inputs {ks : Vector Bool Config.nkeys} {es : List HostEvent} {s t : State} (h : tick ks es s = .next t) :
    t.inputs = s.inputs := by
  rcases tick_cases h with ⟨-, rfl⟩ | ⟨-, p, rfl, ⟨-, rfl⟩ | ⟨-, rfl⟩ | ⟨-, ⟨-, e, rfl⟩ | ⟨w, u, -, hbody, rfl⟩⟩⟩
  · rfl
  · rfl
  · rfl
  · rfl
  · obtain ⟨-, -, -, -, -, -, hin⟩ := bodyOf_frame hbody
    exact hin

/-- A tick without signals that starts Running does not end Paused. -/
theorem tick_run_of_no_signal {ks : Vector Bool Config.nkeys} {s t : State} (hs : s.run = .running)
    (h : tick ks [] s = .next t) : t.run = .running ∨ t.run = .halted := by
  rcases tick_cases h with ⟨hd, -⟩ | ⟨-, p, rfl, ⟨hp, rfl⟩ | ⟨hp, rfl⟩ | ⟨hp, ⟨-, e, rfl⟩ | ⟨w, u, -, hbody, rfl⟩⟩⟩
  · exact absurd (hs.symm.trans hd) (by decide)
  · exact .inr hp
  · exact absurd (hs.symm.trans hp) (by decide)
  · exact .inr rfl
  · obtain ⟨-, -, -, -, hrun, -, -⟩ := bodyOf_frame hbody
    exact .inl (hrun.trans hp)

/-- A step from a Running core whose next input is given without signals: it runs on with the timers counted down, or it ends
Halted. -/
theorem step_of_no_signal {s t : State} {inp : TickInput} {rest : List TickInput} (hs : s.run = .running)
    (hin : s.inputs = inp :: rest) (hev : inp.events = []) (h : step s = .next t) :
    t.inputs = rest ∧ (t.run = .halted ∨
      (t.run = .running ∧ t.dt.toNat = s.dt.toNat - 1 ∧ t.st.toNat = s.st.toNat - 1)) := by
  have hne : s.run ≠ .halted := by rw [hs]; decide
  have hevents : s.hostInput.events = [] := by rw [State.hostInput, hin]; exact hev
  rw [step_of_not_halted hne, hevents] at h
  have hinputs : t.inputs = rest := by rw [tick_inputs h, State.dropInput_inputs, hin, List.tail_cons]
  refine ⟨hinputs, ?_⟩
  rcases tick_run_of_no_signal (s := s.dropInput) hs h with hrun | hrun
  · rcases tick_timers (s := s.dropInput) hne h with ⟨-, hdt, hst⟩ | ⟨hrun', -, -⟩
    · exact .inr ⟨hrun, by rw [hdt, countDown_toNat]; rfl, by rw [hst, countDown_toNat]; rfl⟩
    · exact absurd hrun hrun'
  · exact .inl hrun

/-! ## Pausing -/

theorem runSteps_one (s : State) : runSteps 1 s = step s := by
  obtain ⟨t, ht⟩ := step_answers s
  rw [ht]
  exact runSteps_succ 0 ht

/-- Ticks without signals that start Paused latch keys and take their inputs from the script. -/
theorem runSteps_of_paused {s : State} (hs : s.run = .paused) (pauses rest : List TickInput) (k : Nat)
    (hev : ∀ inp ∈ pauses, inp.events = []) :
    ∃ ks, runSteps (pauses.length + k) { s with inputs := pauses ++ rest } =
      runSteps k { s with keys := ks, inputs := rest } := by
  induction pauses generalizing s with
  | nil => exact ⟨s.keys, by rw [List.length_nil, Nat.zero_add]; rfl⟩
  | cons inp pauses ih =>
    have hstep : step { s with inputs := inp :: (pauses ++ rest) } =
        .next { s with keys := inp.keys, inputs := pauses ++ rest } := by
      have hnil : inp.events = [] := hev inp (by simp)
      have hne : s.run ≠ .halted := by rw [hs]; decide
      rw [step_with_inputs hne, hnil]
      exact runTick_of_paused hs
    obtain ⟨ks, hks⟩ := ih (s := { s with keys := inp.keys }) hs fun i hi => hev i (by simp [hi])
    refine ⟨ks, ?_⟩
    rw [List.length_cons, Nat.add_right_comm]
    exact (runSteps_succ _ hstep).trans hks

/-! ## Spinning -/

/-- A jump to its own address leaves the state in which the cycle starts. -/
theorem bodyOf_selfJump {s : State} {nnn : Addr12} (h : nnn.toNat = s.pc.toNat) :
    bodyOf (.jp nnn) s.advancePc = .ok s := by
  have htarget : address nnn = s.pc := BitVec.eq_of_toNat_eq ((address_toNat nnn).trans h)
  rw [bodyOf, htarget]
  rfl

end Sys2Proof.Machine

namespace Sys2Proof

open Machine

/-- Settles O36: a Quit among the signals leads to Halted, where a tick runs no cycle. -/
theorem quitHaltsWithoutACycle : Obligations.QuitHaltsWithoutACycle := by
  refine ⟨RunState.event_quit, fun s ks es hs hquit => ?_⟩
  have hrun : (s.latch ks es).run = .halted := (RunState.applyEvents_eq_halted_iff _ _).mpr (.inr hquit)
  have htick : tick ks es s = .next (s.latch ks es) := by
    rw [tick_of_not_halted hs]
    simp only [runTick, hrun]
  exact ⟨_, htick, hrun, rfl, State.changesOnly_mono (s.latch_changesOnly ks es) (by simp)⟩

/-- Settles O37: a Quit leads to Halted for good, and toggles alternate. -/
theorem signalsOfATickAct : Obligations.SignalsOfATickAct := by
  refine ⟨rfl, rfl, rfl, fun r es => ⟨fun h => ?_, fun h => ?_, fun h => ?_⟩⟩
  · exact (RunState.applyEvents_eq_halted_iff r es).mpr (.inr h)
  · exact (RunState.applyEvents_of_not_quit r h).1
  · exact (RunState.applyEvents_of_not_quit r h).2

/-- Settles O39: nothing leaves Halted, and without a Quit a tick ends there by the error that its cycle took. -/
theorem haltedIsTerminal : Obligations.HaltedIsTerminal := by
  refine ⟨fun s ks es hs => ⟨tick_of_halted hs, step_of_halted hs⟩, RunState.event_halted, fun i s t hs hexec => ?exec,
    fun s t ks es hs htick ht => ?entry⟩
  case exec =>
    rcases exec_next_iff.mp hexec with hbody | ⟨e, -, rfl⟩
    · obtain ⟨-, -, -, -, hrun, -, -⟩ := bodyOf_frame hbody
      exact hrun.trans hs
    · rfl
  case entry =>
    by_cases hquit : .quit ∈ es
    · exact .inl hquit
    · obtain ⟨hrun, hcycle, e, rfl⟩ := tick_ends_halted hs hquit htick ht
      refine .inr ⟨?_, e, rfl⟩
      rwa [State.latch, hrun] at hcycle

/-- Settles O40: the timer step belongs to the ticks that end Running. -/
theorem timersCountRunningTicks : Obligations.TimersCountRunningTicks := by
  intro s t ks es hs htick
  rcases tick_timers hs htick with ⟨hrun, hdt, hst⟩ | ⟨hrun, hdt, hst⟩
  · exact ⟨fun _ => ⟨by rw [hdt, countDown_toNat], by rw [hst, countDown_toNat]⟩, fun h => absurd hrun h⟩
  · exact ⟨fun h => absurd h hrun, fun _ => ⟨hdt, hst⟩⟩

/-- Settles O41, by induction on the steps: each but the last ends Running, for a Halted core stays Halted. -/
theorem timerReachesZeroInItsCount : Obligations.TimerReachesZeroInItsCount := by
  intro k
  induction k with
  | zero =>
    intro s t _ _ _ hsteps _
    injection hsteps with hsteps
    subst hsteps
    exact ⟨rfl, rfl⟩
  | succ k ih =>
    intro s t hs hlen hev hsteps ht
    match hin : s.inputs with
    | [] => simp [hin] at hlen
    | inp :: rest =>
      rw [hin] at hlen hev
      obtain ⟨u, hu⟩ := step_answers s
      rw [runSteps_succ k hu] at hsteps
      obtain ⟨hrest, hhalt | ⟨hrun, hdt, hst⟩⟩ := step_of_no_signal hs hin (hev inp (by simp)) hu
      · rw [runSteps_of_halted hhalt] at hsteps
        injection hsteps with hsteps
        subst hsteps
        exact absurd (hhalt.symm.trans ht) (by decide)
      · obtain ⟨hdt', hst'⟩ := ih u t hrun (by rw [hrest]; simpa using hlen)
          (fun i hi => hev i (by rw [hrest] at hi; simp [hi])) hsteps ht
        omega

/-- Settles O42: without a Quit a tick ends Halted by an error, taken from the state in which its cycle started. -/
theorem errorsArePrecise : Obligations.ErrorsArePrecise := by
  intro s t ks es hs hquit htick ht
  obtain ⟨-, -, e, rfl⟩ := tick_ends_halted hs hquit htick ht
  exact ⟨e.latch, e.latch_ne_none, rfl⟩

/-- Settles O43: of a step's ends only the error taken writes ERR, and the invariant keeps an error in a Halted core. -/
theorem errorLatchIsWrittenOnce : Obligations.ErrorLatchIsWrittenOnce := by
  intro s t hstep
  refine ⟨fun hne => ?_, fun hinv herr => ?_⟩
  · rcases step_cases hstep with ⟨-, rfl⟩ | ⟨hs, ⟨-, rfl⟩ | ⟨-, e, rfl⟩ | ⟨-, w, u, -, hbody, rfl⟩⟩
    · exact absurd rfl hne
    · exact absurd rfl hne
    · exact ⟨hs, rfl, e.latch_ne_none⟩
    · obtain ⟨-, -, -, -, -, herr, -⟩ := bodyOf_frame hbody
      exact absurd herr hne
  · rw [step_of_halted (hinv.latch herr)] at hstep
    injection hstep with hstep
    rw [hstep]

/-- Settles O44: the word fetched is a jump to its own address, whose tick is the latch and the timer step. -/
theorem spinningCoreSpinsOn : Obligations.SpinningCoreSpinsOn := by
  intro s ks es hspin hrun
  obtain ⟨hs, nnn, hfetch, hself⟩ := hspin
  have hlatch : s.latch ks es = { s with keys := ks } := by rw [State.latch, hrun, ← hs]
  have hbody : bodyOf (decode (0x1#4 ++ nnn)) ({ s with keys := ks } : State).advancePc = .ok { s with keys := ks } := by
    rw [show decode (0x1#4 ++ nnn) = .jp nnn from decodeWith_encode_jp _ nnn]
    exact bodyOf_selfJump hself
  have htick : tick ks es s = .next ({ s with keys := ks } : State).timerTick :=
    tick_of_body_ok (by rw [hs]; decide) hrun (by rw [hlatch]; exact hfetch) (by rw [hlatch]; exact hbody)
  refine ⟨_, htick, fun f hf => ?_, hs, nnn, hfetch, hself⟩
  cases f with
  | keys | dt | st => simp at hf
  | mem | v => exact fun _ => rfl
  | i | pc | stack | sp | fb | run | err | inputs => rfl

/-- Settles O45: the toggle pauses, the paused ticks latch keys that the last tick overwrites, and the last toggle starts the
cycle from the state that a tick without signals would start it from. -/
theorem pausingDoesNotChangeTheMachine : Obligations.PausingDoesNotChangeTheMachine := by
  intro s first last pauses rest hs hfirst hlast hev
  have hne : s.run ≠ .halted := by rw [hs]; decide
  have hpause : step { s with inputs := first :: (pauses ++ last :: rest) } =
      .next { s with run := .paused, keys := first.keys, inputs := pauses ++ last :: rest } := by
    rw [step_with_inputs hne, hfirst, hs]
    exact runTick_of_paused rfl
  obtain ⟨ks, hks⟩ :=
    runSteps_of_paused (s := { s with run := .paused, keys := first.keys }) rfl pauses (last :: rest) 1 hev
  have hresume : step { s with run := .paused, keys := ks, inputs := last :: rest } =
      step { s with inputs := { keys := last.keys, events := [] } :: rest } := by
    have hpaused : ({ s with run := .paused, keys := ks } : State).run ≠ .halted := by simp
    refine (step_with_inputs hpaused last rest).trans ?_
    rw [step_with_inputs hne, hlast, hs]
    rfl
  calc runSteps (pauses.length + 2) { s with inputs := first :: (pauses ++ last :: rest) }
      = runSteps (pauses.length + 1) { s with run := .paused, keys := first.keys, inputs := pauses ++ last :: rest } :=
        runSteps_succ _ hpause
    _ = runSteps 1 { s with run := .paused, keys := ks, inputs := last :: rest } := hks
    _ = step { s with run := .paused, keys := ks, inputs := last :: rest } := runSteps_one _
    _ = step { s with inputs := { keys := last.keys, events := [] } :: rest } := hresume

end Sys2Proof
end

section
/-! The instructions one by one: control flow (41_control_flow.md R90, R92, R93), LD I (42_register_ops.md R97), the no-ops
(44_nop.md R104), and which piece of state each may write (10_state.md R20 to R37). -/

namespace Sys2Proof.Machine

variable {cfg : Config.Params}

/-! ## The ends of an instruction -/

theorem exec_of_body_ok {i : Instr} {s t : State} (h : bodyOf i s.advancePc = .ok t) : exec i s = .next t :=
  exec_next_iff.mpr (.inl h)

theorem exec_of_body_error {i : Instr} {s : State} {e : RuntimeError} (h : bodyOf i s.advancePc = .error e) :
    exec i s = .next (s.takeError e) :=
  exec_next_iff.mpr (.inr ⟨e, h, rfl⟩)

/-- Taking an error writes RUN and ERR, and no other field. -/
theorem State.takeError_haltedWith (s : State cfg) (e : RuntimeError) : s.haltedWith (s.takeError e) e.latch := by
  refine ⟨rfl, rfl, fun f hf => ?_⟩
  cases f with
  | run | err => simp at hf
  | mem | v => exact fun _ => rfl
  | i | pc | stack | sp | fb | keys | dt | st | inputs => rfl

/-- A field that is back where it was need not be named. -/
theorem State.changesOnly_of_agreesOn {s t : State cfg} {g : Field} {fs : List Field} (h : s.changesOnly t (g :: fs))
    (hg : s.agreesOn t g) : s.changesOnly t fs := by
  intro f hf
  by_cases hfg : f = g
  · rw [hfg]; exact hg
  · exact h f (by simp [hfg, hf])

/-! ## CALL and RET -/

/-- What CALL and RET write. -/
theorem State.changesOnly_of_stack (s : State cfg) (w : Word) (stack : Vector Word cfg.stackDepth)
    (sp : Fin (cfg.stackDepth + 1)) : s.changesOnly { s with stack := stack, sp := sp, pc := w } [.pc, .sp, .stack] := by
  intro f hf
  cases f with
  | pc | sp | stack => simp at hf
  | mem | v => exact fun _ => rfl
  | i | fb | keys | dt | st | run | err | inputs => rfl

theorem callBody_of_lt {nnn : Addr12} {s : State cfg} (h : s.sp.val < cfg.stackDepth) : ∃ t, callBody nnn s = .ok t := by
  simp only [callBody, State.push_of_lt h]
  exact ⟨_, rfl⟩

theorem callBody_of_full {nnn : Addr12} {s : State cfg} (h : s.sp.val = cfg.stackDepth) :
    callBody nnn s = .error .stackOverflow := by
  simp only [callBody, State.push_of_full h]

theorem retBody_of_pos {s : State cfg} (h : 0 < s.sp.val) : ∃ t, retBody s = .ok t := by
  simp only [retBody, State.pop_of_pos h]
  exact ⟨_, rfl⟩

theorem retBody_of_empty {s : State cfg} (h : s.sp.val = 0) : retBody s = .error .stackUnderflow := by
  simp only [retBody, State.pop_of_empty h]

/-- CALL with room on the stack. -/
theorem exec_call_of_lt (nnn : Addr12) {s : State} (h : s.sp.val < 12) :
    ∃ t : State, exec (.call nnn) s = .next t ∧ t.pc.toNat = nnn.toNat ∧ t.sp.val = s.sp.val + 1 ∧
      t.stack[s.sp.val]? = some (s.pc + 2) ∧ (∀ k, k ≠ s.sp.val → t.stack[k]? = s.stack[k]?) ∧
      s.changesOnly t [.pc, .sp, .stack] := by
  obtain ⟨t, hbody⟩ := callBody_of_lt (nnn := nnn) (s := s.advancePc) h
  obtain ⟨hsp, htop, hothers, ht⟩ := callBody_eq_ok hbody
  refine ⟨t, exec_of_body_ok hbody, ?_, hsp, htop, hothers, ?_⟩
  · rw [ht]; exact address_toNat nnn
  · rw [ht]; exact s.changesOnly_of_stack _ _ _

/-- RET with an entry on the stack. -/
theorem exec_ret_of_pos {s : State} (h : 0 < s.sp.val) :
    ∃ t : State, exec .ret s = .next t ∧ t.sp.val + 1 = s.sp.val ∧ s.stack[t.sp.val]? = some t.pc ∧ t.stack = s.stack ∧
      s.changesOnly t [.pc, .sp] := by
  obtain ⟨t, hbody⟩ := retBody_of_pos (s := s.advancePc) h
  obtain ⟨hsp, htop, ht⟩ := retBody_eq_ok hbody
  have hstack : t.stack = s.stack := by rw [ht]; rfl
  have hframe : s.changesOnly t [.stack, .pc, .sp] := by
    rw [ht]
    exact State.changesOnly_mono (s.changesOnly_of_stack t.pc s.stack t.sp) (by simp)
  exact ⟨t, exec_of_body_ok hbody, hsp.symm, htop, hstack, State.changesOnly_of_agreesOn hframe hstack⟩

/-! ## Which bodies write what -/

/-- The framebuffer is CLS's and DRW's alone (10_state.md R33). -/
theorem bodyOf_fb {i : Instr} {s t : State cfg} (h : bodyOf i s = .ok t) : t.fb = s.fb ∨ i.kind = .cls ∨ i.kind = .drw := by
  cases i
  case cls => exact .inr (.inl rfl)
  case drw => exact .inr (.inr rfl)
  case ret => exact .inl (by rw [retBody_writes (show retBody s = .ok t from h)])
  case call => exact .inl (by rw [callBody_writes (show callBody _ s = .ok t from h)])
  case seByte => injection h with h; split at h <;> (subst h; exact .inl rfl)
  all_goals (injection h with h; subst h; exact .inl rfl)

/-- A general register is written by LD Vx and ADD Vx, and VF by DRW too (10_state.md R22, R23). -/
theorem bodyOf_getV {i : Instr} {s t : State cfg} (h : bodyOf i s = .ok t) (r : Reg) :
    t.getV r = s.getV r ∨ i.kind = .ldByte ∨ i.kind = .addByte ∨ (i.kind = .drw ∧ r = vf) := by
  cases i
  case ldByte => exact .inr (.inl rfl)
  case addByte => exact .inr (.inr (.inl rfl))
  case drw x y n =>
    obtain ⟨d, -, rfl⟩ := drwBody_eq_ok (show drwBody x y n s = .ok t from h)
    by_cases hr : r = vf
    · exact .inr (.inr (.inr ⟨rfl, hr⟩))
    · exact .inl (by rw [State.getV_setFlag, if_neg (Ne.symm hr)]; rfl)
  case ret => exact .inl (by rw [retBody_writes (show retBody s = .ok t from h)]; rfl)
  case call => exact .inl (by rw [callBody_writes (show callBody _ s = .ok t from h)]; rfl)
  case seByte => injection h with h; split at h <;> (subst h; exact .inl rfl)
  all_goals (injection h with h; subst h; exact .inl rfl)

/-- An error is raised by CALL, RET and DRW alone (60_exceptions.md R106). -/
theorem bodyOf_error_kind {i : Instr} {s : State cfg} {e : RuntimeError} (h : bodyOf i s = .error e) :
    i.kind = .call ∨ i.kind = .ret ∨ i.kind = .drw := by
  cases i
  case call => exact .inl rfl
  case ret => exact .inr (.inl rfl)
  case drw => exact .inr (.inr rfl)
  all_goals cases h

/-- A stack slot is written by CALL alone, SP by CALL and RET (10_state.md R31). -/
theorem bodyOf_stack_kind {i : Instr} {s t : State cfg} (h : bodyOf i s = .ok t) :
    (t.stack = s.stack ∨ i.kind = .call) ∧ (t.sp = s.sp ∨ i.kind = .call ∨ i.kind = .ret) := by
  rcases bodyOf_stack h with ⟨hstack, hsp⟩ | ⟨rfl, hret⟩ | ⟨nnn, rfl, -⟩
  · exact ⟨.inl hstack, .inl hsp⟩
  · exact ⟨.inl (by rw [retBody_writes hret]), .inr (.inr rfl)⟩
  · exact ⟨.inr rfl, .inr (.inl rfl)⟩

/-- A body that does nothing leaves `pc` past the instruction. -/
theorem exec_of_body_noEffect {i : Instr} {s : State} (h : bodyOf i s.advancePc = .ok s.advancePc) :
    ∃ t : State, exec i s = .next t ∧ t.pc = s.pc + 2 ∧ s.changesOnly t [.pc] :=
  ⟨s.advancePc, exec_of_body_ok h, rfl, s.advancePc_changesOnly⟩

/-- Writing `I` writes no other field. -/
theorem State.setI_changesOnly (s : State cfg) (w : Word) : s.changesOnly (s.setI w) [.i] := by
  intro f hf
  cases f with
  | i => simp at hf
  | mem => exact State.readByte_congr (State.setI_mem s w)
  | v => exact State.getV_congr (State.setI_v s w)
  | pc | stack | sp | fb | keys | dt | st | run | err | inputs => simp [State.agreesOn]

theorem State.equalsImm_iff (s : State cfg) (x : Reg) (nn : Byte) : s.equalsImm x nn = true ↔ s.getV x = nn := by
  rw [State.equalsImm, beq_iff_eq]

/-- SE's two ends. -/
theorem bodyOf_seByte (x : Reg) (nn : Byte) (s : State cfg) :
    bodyOf (.seByte x nn) s.advancePc = .ok (s.advancePc.setPc (if s.getV x = nn then s.pc + 4 else s.pc + 2)) := by
  have hcond : s.advancePc.equalsImm x nn = true ↔ s.getV x = nn := State.equalsImm_iff s.advancePc x nn
  have hfour : s.pc + 2 + 2 = s.pc + 4 := by rw [BitVec.add_assoc]; rfl
  by_cases h : s.getV x = nn
  · simp only [bodyOf, if_pos (hcond.mpr h), if_pos h, ← hfour]
    rfl
  · simp only [bodyOf, if_neg (mt hcond.mp h), if_neg h]
    rfl

end Sys2Proof.Machine

namespace Sys2Proof

open Machine

/-- Settles O22: a push that succeeds, and a push on a full stack. -/
theorem callPushesTheReturnAddress : Obligations.CallPushesTheReturnAddress := by
  refine fun nnn s => ⟨exec_call_of_lt nnn, fun hfull => ?_⟩
  exact ⟨_, exec_of_body_error (callBody_of_full (s := s.advancePc) hfull), s.takeError_haltedWith _⟩

/-- Settles O23: a pop that succeeds, and a pop of an empty stack. -/
theorem retPopsTheReturnAddress : Obligations.RetPopsTheReturnAddress := by
  refine fun s => ⟨fun hpos => ?_, fun hempty => ?_⟩
  · obtain ⟨t, hexec, hsp, htop, -, hframe⟩ := exec_ret_of_pos hpos
    exact ⟨t, hexec, hsp, htop, hframe⟩
  · exact ⟨_, exec_of_body_error (retBody_of_empty (s := s.advancePc) hempty), s.takeError_haltedWith _⟩

/-- Settles O24: SE is one write of `pc`, chosen by the comparison. -/
theorem seSkipsOnEquality : Obligations.SeSkipsOnEquality := by
  intro x nn s
  refine ⟨_, exec_of_body_ok (bodyOf_seByte x nn s), fun heq => ?_, fun hne => ?_,
    State.changesOnly_mono (State.changesOnly_trans s.advancePc_changesOnly (State.setPc_changesOnly _ _)) (by simp)⟩
  · exact if_pos (BitVec.eq_of_toNat_eq heq)
  · exact if_neg fun h => hne (congrArg BitVec.toNat h)

/-- Settles O25: the RET pops the slot that the CALL wrote, the one above the caller's entries. -/
theorem callThenRetComesBack : Obligations.CallThenRetComesBack := by
  intro nnn s hroom
  obtain ⟨t, hcall, -, hsp, htop, hothers, hframe⟩ := exec_call_of_lt nnn hroom
  obtain ⟨u, hret, hsp', htop', hstack, hframe'⟩ := exec_ret_of_pos (s := t) (by omega)
  have hspu : u.sp = s.sp := Fin.ext (by omega)
  have hpc : u.pc = s.pc + 2 := by
    rw [hspu, htop] at htop'
    injection htop' with h
    exact h.symm
  have hvalid : ∀ k, k < s.sp.val → u.stack[k]? = s.stack[k]? := by
    intro k hk
    rw [hstack, hothers k (by omega)]
  have hboth : s.changesOnly u [.sp, .pc, .stack] :=
    State.changesOnly_mono (State.changesOnly_trans hframe hframe') (by simp)
  exact ⟨t, u, hcall, hret, hpc, hspu, hvalid, State.changesOnly_of_agreesOn hboth hspu⟩

/-- Settles O26: an error leaves the state before the cycle, and each body says where it leaves `pc`. -/
theorem pcAfterEachInstruction : Obligations.PcAfterEachInstruction := by
  intro i s t hs hexec
  rcases exec_next_iff.mp hexec with hbody | ⟨e, -, rfl⟩
  · obtain ⟨-, -, -, -, hrun, -, -⟩ := bodyOf_frame hbody
    have ht : t.run = .running := hrun.trans hs
    refine ⟨fun hhalt => absurd (ht.symm.trans hhalt) (by decide), fun _ => ?_⟩
    cases i with
    | ret =>
      obtain ⟨hsp, htop, -⟩ := retBody_eq_ok hbody
      have hprev : s.sp.val - 1 = t.sp.val := Nat.sub_eq_of_eq_add hsp
      exact hprev ▸ htop
    | call nnn => exact congrArg State.pc (callBody_writes hbody)
    | drw x y n =>
      obtain ⟨d, -, rfl⟩ := drwBody_eq_ok hbody
      rfl
    | seByte x nn =>
      rw [bodyOf_seByte] at hbody
      injection hbody with hbody
      exact (congrArg State.pc hbody).symm
    | _ =>
      injection hbody with hbody
      exact (congrArg State.pc hbody).symm
  · exact ⟨fun _ => rfl, fun hrun => by cases hrun⟩

/-- Settles O29: LD I is one write of the zero-extended address. -/
theorem ldILoadsTheAddress : Obligations.LdILoadsTheAddress := by
  intro nnn s
  exact ⟨s.advancePc.setI (address nnn), exec_of_body_ok rfl, address_toNat nnn, rfl,
    State.changesOnly_trans s.advancePc_changesOnly (s.advancePc.setI_changesOnly _)⟩

/-- Settles O31: the body of each no-op is its state, with `pc` past the instruction. -/
theorem nopOnlyAdvancesThePc : Obligations.NopOnlyAdvancesThePc := by
  intro rest s i hi
  have hbody : bodyOf i s.advancePc = .ok s.advancePc := by
    simp only [List.mem_cons, List.not_mem_nil, or_false] at hi
    rcases hi with rfl | rfl | rfl | rfl | rfl | rfl | rfl | rfl | rfl <;> rfl
  exact exec_of_body_noEffect hbody

/-- Settles O47: the bodies' own frames, and the errors' two fields. -/
theorem onlyTheNamedInstructionsWrite : Obligations.OnlyTheNamedInstructionsWrite := by
  intro i s t hexec
  rcases exec_next_iff.mp hexec with hbody | ⟨e, hbody, rfl⟩
  · obtain ⟨hmem, hkeys, hdt, hst, -, herr, hinputs⟩ := bodyOf_frame hbody
    obtain ⟨hstack, hsp⟩ := bodyOf_stack_kind hbody
    refine ⟨fun h => ?i, (bodyOf_fb hbody).resolve_left, hstack.resolve_left, hsp.resolve_left, fun ⟨r, hr, h⟩ => ?v,
      fun h => ?vf, fun h => absurd herr h, hmem, hkeys, hdt, hst, hinputs⟩
    case i =>
      rcases bodyOf_i hbody with hi | ⟨nnn, rfl, -⟩
      · exact absurd hi h
      · rfl
    case v =>
      rcases bodyOf_getV hbody r with hsame | hld | hadd | ⟨-, hvf⟩
      · exact absurd hsame h
      · exact .inl hld
      · exact .inr hadd
      · exact absurd hvf hr
    case vf =>
      rcases bodyOf_getV hbody 15 with hsame | hld | hadd | ⟨hdrw, -⟩
      · exact absurd hsame h
      · exact .inl hld
      · exact .inr (.inl hadd)
      · exact .inr (.inr hdrw)
  · exact ⟨fun h => absurd rfl h, fun h => absurd rfl h, fun h => absurd rfl h, fun h => absurd rfl h,
      fun ⟨_, _, h⟩ => absurd rfl h, fun h => absurd rfl h, fun _ => bodyOf_error_kind hbody, rfl, rfl, rfl, rfl, rfl⟩

end Sys2Proof
end

section
/-! The outputs (00_scope.md R11, 10_state.md R33, R37). -/

namespace Sys2Proof.Machine

variable {cfg : Config.Params}

/-- The rows as lists, one after another, are the flattened grid. -/
theorem Framebuffer.flatten_map_toList (fb : Framebuffer cfg) : (fb.toList.map Vector.toList).flatten = fb.flatten.toList := by
  obtain ⟨rows, hrows⟩ := fb
  simp only [Vector.flatten, Vector.toList_mk, Array.toList_flatten, Array.toList_map, List.map_map]
  rfl

theorem State.fbOut_eq_flatten (s : State cfg) : s.fbOut = s.fb.flatten.toList := s.fb.flatten_map_toList

theorem State.fbOut_length (s : State cfg) : s.fbOut.length = cfg.fbH * cfg.fbW := by
  rw [State.fbOut_eq_flatten, Vector.length_toList]

/-- Pixel `(x, y)` of the grid stands at index `y * FB_W + x` (10_state.md R33). -/
theorem State.fbOut_getElem? (s : State cfg) {y x : Nat} (hy : y < cfg.fbH) (hx : x < cfg.fbW) :
    s.fbOut[y * cfg.fbW + x]? = some (s.fb.pixel y x) := by
  have hidx : y * cfg.fbW + x < cfg.fbH * cfg.fbW :=
    calc y * cfg.fbW + x < (y + 1) * cfg.fbW := by rw [Nat.succ_mul]; omega
      _ ≤ cfg.fbH * cfg.fbW := Nat.mul_le_mul_right _ hy
  have hdiv : (y * cfg.fbW + x) / cfg.fbW = y := by
    rw [Nat.mul_comm, Nat.mul_add_div cfg.fbW_pos, Nat.div_eq_of_lt hx, Nat.add_zero]
  have hmod : (y * cfg.fbW + x) % cfg.fbW = x := by rw [Nat.mul_comm, Nat.mul_add_mod, Nat.mod_eq_of_lt hx]
  rw [State.fbOut_eq_flatten, Vector.getElem?_toList, Vector.getElem?_eq_getElem hidx, Vector.getElem_flatten,
    Framebuffer.pixel_of_inside hy hx]
  simp only [hdiv, hmod]

theorem State.toneOut_iff (s : State cfg) : s.toneOut = true ↔ 0 < s.st.toNat := by
  simp [State.toneOut, BitVec.lt_def]

/-- Each error has its own code (10_state.md R37). -/
theorem ErrLatch.code_injective : Function.Injective ErrLatch.code := by
  intro a b h
  cases a <;> cases b <;> simp_all [ErrLatch.code]

theorem ErrLatch.code_eq_iff (a b : ErrLatch) : a.code = b.code ↔ a = b := code_injective.eq_iff

end Sys2Proof.Machine

namespace Sys2Proof

open Machine

/-- Settles O46: `fb_out` is the flattened grid, and the error's code is injective. -/
theorem outputsReportTheState : Obligations.OutputsReportTheState := by
  intro s
  have code := ErrLatch.code_eq_iff s.err
  exact ⟨s.toneOut_iff, rfl, s.fbOut_length, fun y x hy hx => s.fbOut_getElem? hy hx, code .none, code .stackOverflow,
    code .stackUnderflow, code .memoryBounds⟩

end Sys2Proof
end

section
/-! What every step leaves, and what holds in every state a program reaches (20_memory.md R51, R57, 10_state.md R27, R35). -/

namespace Sys2Proof.Machine

variable {cfg : Config.Params}

/-- No step writes memory (20_memory.md R51). -/
theorem step_mem {s t : State} (h : step s = .next t) : t.mem = s.mem := by
  rcases step_cases h with ⟨-, rfl⟩ | ⟨-, ⟨-, rfl⟩ | ⟨-, e, rfl⟩ | ⟨-, w, u, -, hbody, rfl⟩⟩
  · rfl
  · rfl
  · rfl
  · obtain ⟨hmem, -, -, -, -, -, -⟩ := bodyOf_frame hbody
    exact hmem

/-- Only the timer step writes a timer, and it leaves one at 0 (60_exceptions.md R116, R119). -/
theorem step_timers_zero {s t : State} (h : step s = .next t) (hdt : s.dt = 0) (hst : s.st = 0) : t.dt = 0 ∧ t.st = 0 := by
  rcases step_cases h with ⟨-, rfl⟩ | ⟨-, ⟨-, rfl⟩ | ⟨-, e, rfl⟩ | ⟨-, w, u, -, hbody, rfl⟩⟩
  · exact ⟨hdt, hst⟩
  · exact ⟨hdt, hst⟩
  · exact ⟨hdt, hst⟩
  · obtain ⟨-, -, hdt', hst', -, -, -⟩ := bodyOf_frame hbody
    have hu : u.dt = 0 ∧ u.st = 0 := ⟨hdt'.trans hdt, hst'.trans hst⟩
    rw [State.timerTick_dt, State.timerTick_st, hu.1, hu.2]
    exact ⟨rfl, rfl⟩

/-- A property of the state after construction that every step and every supply of inputs keeps holds in every reachable
state. -/
theorem Reaches.invariant {rom : List Byte} {P : State → Prop} (built : rom.length ≤ 3584 → P (State.loaded rom))
    (supplied : ∀ (s : State) (inputs : List TickInput), P s → P { s with inputs := inputs })
    (stepped : ∀ s t : State, P s → step s = .next t → P t) {s : State} (h : Reaches rom s) : P s := by
  induction h with
  | built hb =>
    obtain ⟨hlen, rfl⟩ := construct_eq_ok hb
    exact built hlen
  | supplied _ inputs ih => exact supplied _ inputs ih
  | stepped _ hst ih => exact stepped _ _ ih hst

theorem Reaches.length_le {rom : List Byte} {s : State} (h : Reaches rom s) : rom.length ≤ 3584 :=
  h.invariant (P := fun _ => rom.length ≤ 3584) id (fun _ _ h => h) (fun _ _ h _ => h)

theorem Reaches.mem_eq {rom : List Byte} {s : State} (h : Reaches rom s) : s.mem = (State.loaded rom).mem :=
  h.invariant (P := fun t => t.mem = (State.loaded rom).mem) (fun _ => rfl) (fun _ _ h => h)
    (fun _ _ h hst => (step_mem hst).trans h)

theorem Reaches.timers_zero {rom : List Byte} {s : State} (h : Reaches rom s) : s.dt = 0 ∧ s.st = 0 :=
  h.invariant (P := fun t => t.dt = 0 ∧ t.st = 0) (fun _ => ⟨rfl, rfl⟩) (fun _ _ h => h)
    (fun _ _ h hst => step_timers_zero hst h.1 h.2)

/-! ## Even addresses -/

theorem State.evenAligned.congr {s t : State cfg} (h : s.evenAligned) (hpc : t.pc = s.pc) (hstack : t.stack = s.stack)
    (hsp : t.sp = s.sp) : t.evenAligned := by
  rw [State.evenAligned, hpc, hstack, hsp]
  exact h

/-- Two bytes on from an even address is an even one, modulo 65536 too. -/
theorem add_two_even {w : Word} (h : w.toNat % 2 = 0) : (w + 2).toNat % 2 = 0 := by
  rw [BitVec.toNat_add, Nat.mod_mod_of_dvd _ (by decide : 2 ∣ 2 ^ 16)]
  simpa [Nat.add_mod] using h

/-- A body keeps `pc` and the return addresses even unless it jumps or calls to an odd target (10_state.md R27). -/
theorem bodyOf_evenAligned {i : Instr} {s t : State cfg} (hs : s.evenAligned) (htarget : evenTarget i)
    (h : bodyOf i s.advancePc = .ok t) : t.evenAligned := by
  obtain ⟨hpc, hreturns⟩ := hs
  have hnext : s.advancePc.pc.toNat % 2 = 0 := add_two_even hpc
  constructor
  · rcases bodyOf_pc h with hpc' | hpc' | ⟨nnn, hjp, hpc'⟩ | ⟨-, hret⟩ | ⟨nnn, hi, hcall⟩
    · rw [hpc']; exact hnext
    · rw [hpc']; exact add_two_even hnext
    · rw [hpc', address_toNat]; exact htarget.1 nnn hjp
    · obtain ⟨hsp, htop, -⟩ := retBody_eq_ok hret
      exact hreturns t.sp.val t.pc (by rw [State.advancePc_sp] at hsp; omega) htop
    · rw [callBody_writes hcall, address_toNat]
      exact htarget.2 nnn hi
  · intro k a hk ha
    rcases bodyOf_stack h with ⟨hstack, hsp⟩ | ⟨-, hret⟩ | ⟨nnn, -, hcall⟩
    · rw [hsp] at hk
      rw [hstack] at ha
      exact hreturns k a hk ha
    · obtain ⟨hsp, -, ht⟩ := retBody_eq_ok hret
      rw [ht] at ha
      exact hreturns k a (by rw [State.advancePc_sp] at hsp; omega) ha
    · obtain ⟨hsp, htop, hothers, -⟩ := callBody_eq_ok hcall
      by_cases hkt : k = s.sp.val
      · rw [hkt, show t.stack[s.sp.val]? = some s.advancePc.pc from htop] at ha
        injection ha with ha
        rw [← ha]
        exact hnext
      · rw [hothers k hkt] at ha
        exact hreturns k a (by rw [State.advancePc_sp] at hsp; omega) ha

end Sys2Proof.Machine

namespace Sys2Proof

open Machine

/-- Settles O48: no step writes memory, and a read depends on memory alone. -/
theorem noStepWritesMemory : Obligations.NoStepWritesMemory :=
  fun _ _ hstep => State.readByte_congr (step_mem hstep)

/-- Settles O52: the timers are 0 at construction, and a step leaves them so. -/
theorem reachableTimersAreZero : Obligations.ReachableTimersAreZero := by
  intro rom s h
  obtain ⟨hdt, hst⟩ := h.timers_zero
  exact ⟨by rw [hdt]; rfl, by rw [hst]; rfl, by rw [State.toneOut, hst]; rfl⟩

/-- Settles O53: memory is construction's in every reachable state. -/
theorem reachableMemoryIsTheImage : Obligations.ReachableMemoryIsTheImage := by
  intro rom s h
  have hread (a : Nat) : s.readByte a = (State.loaded rom).readByte a := State.readByte_congr h.mem_eq a
  refine ⟨fun k b hk => ?_, fun a ha => ?_⟩
  · rw [hread, State.readByte_loaded_inside h.length_le hk]
  · rw [hread, State.readByte_loaded_outside ha]

/-- Settles O54: of a step's ends only an instruction's body moves `pc` or the stack. -/
theorem evenTargetsKeepThePcEven : Obligations.EvenTargetsKeepThePcEven := by
  intro s t hs htarget hstep
  rcases step_cases hstep with ⟨-, rfl⟩ | ⟨-, ⟨-, rfl⟩ | ⟨-, e, rfl⟩ | ⟨-, w, u, hfetch, hbody, rfl⟩⟩
  · exact hs
  · exact hs.congr rfl rfl rfl
  · exact hs.congr rfl rfl rfl
  · have hpre : s.preCycle.evenAligned := hs.congr rfl rfl rfl
    exact (bodyOf_evenAligned hpre (htarget w hfetch) hbody).congr rfl rfl rfl

end Sys2Proof
end

section
/-! A run from an empty image (70_reset_and_hazards.md R126). -/

namespace Sys2Proof.Machine

/-- A state of the run from an empty image: reset's but for `pc`, the keys and the script. -/
def State.emptyRun (pc : Nat) (ks : Vector Bool Config.nkeys) (ins : List TickInput) : State :=
  { State.reset with pc := BitVec.ofNat 16 pc, keys := ks, inputs := ins }

theorem State.emptyRun_changesOnly (pc : Nat) (ks : Vector Bool Config.nkeys) (ins : List TickInput) :
    State.reset.changesOnly (State.emptyRun pc ks ins) [.pc, .keys, .inputs] := by
  intro f hf
  cases f with
  | pc | keys | inputs => simp at hf
  | mem | v => exact fun _ => rfl
  | i | stack | sp | fb | dt | st | run | err => rfl

theorem State.emptyRun_pc_toNat {pc : Nat} (h : pc ≤ 4096) (ks : Vector Bool Config.nkeys) (ins : List TickInput) :
    (State.emptyRun pc ks ins).pc.toNat = pc := by
  change (BitVec.ofNat 16 pc).toNat = pc
  rw [BitVec.toNat_ofNat]
  omega

/-- Above `ENTRY` an empty memory holds zeros, which are a no-op's word. -/
theorem State.emptyRun_fetch {pc : Nat} (hlo : 0x200 ≤ pc) (hhi : pc + 1 < 4096) (ks : Vector Bool Config.nkeys)
    (ins : List TickInput) : (State.emptyRun pc ks ins).fetch = .ok 0x0000#16 := by
  have hpc := State.emptyRun_pc_toNat (show pc ≤ 4096 by omega) ks ins
  have hzero {a : Nat} (ha : 0x200 ≤ a) : (State.emptyRun pc ks ins).mem.byteAt Config.reference a = 0 :=
    Memory.background_of_entry_le ha
  rw [State.fetch_of_inside (by rw [hpc]; exact hhi), hpc, hzero hlo, hzero (by omega)]
  rfl

theorem State.emptyRun_ne_halted {pc : Nat} {ks : Vector Bool Config.nkeys} {ins : List TickInput} :
    (State.emptyRun pc ks ins).run ≠ .halted :=
  show RunState.running ≠ .halted by decide

theorem State.emptyRun_advancePc (pc : Nat) (ks : Vector Bool Config.nkeys) (ins : List TickInput) :
    (State.emptyRun pc ks ins).advancePc = State.emptyRun (pc + 2) ks ins := by
  have hpc : BitVec.ofNat 16 pc + 2 = BitVec.ofNat 16 (pc + 2) := (BitVec.ofNat_add ..).symm
  rw [State.emptyRun, State.emptyRun, ← hpc]
  rfl

/-- One no-op of the run. -/
theorem step_emptyRun {pc : Nat} (hlo : 0x200 ≤ pc) (hhi : pc + 1 < 4096) (ks : Vector Bool Config.nkeys) {inp : TickInput}
    {ins : List TickInput} (hev : inp.events = []) :
    step (State.emptyRun pc ks (inp :: ins)) = .next (State.emptyRun (pc + 2) inp.keys ins) := by
  have hpre : (State.emptyRun pc ks (inp :: ins)).preCycle = State.emptyRun pc inp.keys ins := by
    rw [State.preCycle_of_inputs rfl, hev]
    rfl
  have hdecode : decode 0x0000#16 = .nop0 0 := by decide
  have hcycle : cycle (State.emptyRun pc inp.keys ins) = .next (State.emptyRun (pc + 2) inp.keys ins) := by
    rw [cycle_of_fetch (State.emptyRun_fetch hlo hhi _ _), ← State.emptyRun_advancePc]
    exact congrArg (execute · (State.emptyRun pc inp.keys ins)) hdecode
  rw [step_of_running State.emptyRun_ne_halted (by rw [hpre]; rfl), hpre, hcycle]
  rfl

/-- The no-ops of the run, one a tick. -/
theorem runSteps_emptyRun (k pc : Nat) (hlo : 0x200 ≤ pc) (hhi : pc + 2 * k ≤ 4096) (ks : Vector Bool Config.nkeys)
    {ins : List TickInput} (hlen : k ≤ ins.length) (hev : ∀ inp ∈ ins, inp.events = []) :
    ∃ ks', runSteps k (State.emptyRun pc ks ins) = .next (State.emptyRun (pc + 2 * k) ks' (ins.drop k)) := by
  induction k generalizing pc ks ins with
  | zero => exact ⟨ks, rfl⟩
  | succ k ih =>
    match ins with
    | [] => simp at hlen
    | inp :: ins =>
      obtain ⟨ks', hks⟩ := ih (pc + 2) (by omega) (by omega) inp.keys (by simpa using hlen)
        fun i hi => hev i (by simp [hi])
      refine ⟨ks', ?_⟩
      rw [runSteps_succ k (step_emptyRun hlo (by omega) ks (hev inp (by simp))), hks, List.drop_succ_cons,
        show pc + 2 + 2 * k = pc + 2 * (k + 1) by omega]

/-- Steps in a row are a run of the first and then a run of the others. -/
theorem runSteps_add {j : Nat} (k : Nat) {s t : State} (h : runSteps j s = .next t) : runSteps (j + k) s = runSteps k t := by
  induction j generalizing s with
  | zero =>
    injection h with h
    rw [Nat.zero_add, h]
  | succ j ih =>
    obtain ⟨u, hu⟩ := step_answers s
    rw [runSteps_succ j hu] at h
    rw [Nat.add_right_comm, runSteps_succ (j + k) hu, ih h]

/-- At the end of memory the fetch raises `MemoryBounds`. -/
theorem step_emptyRun_end (ks : Vector Bool Config.nkeys) {ins : List TickInput} (hev : ∀ inp ∈ ins, inp.events = []) :
    ∃ t : State, step (State.emptyRun 0x1000 ks ins) = .next t ∧ t.pc.toNat = 0x1000 ∧ t.run = .halted ∧
      t.err = .memoryBounds := by
  have hevents : (State.emptyRun 0x1000 ks ins).hostInput.events = [] := by
    cases ins with
    | nil => rfl
    | cons inp ins => exact hev inp (by simp)
  have hrun : (State.emptyRun 0x1000 ks ins).preCycle.run = .running := by
    rw [State.preCycle, State.latch_run, hevents]
    rfl
  have hfetch : (State.emptyRun 0x1000 ks ins).preCycle.fetch = .error (.memoryBounds 0x1000) :=
    State.fetch_of_outside (s := (State.emptyRun 0x1000 ks ins).preCycle) (Nat.le_refl 0x1000)
  refine ⟨(State.emptyRun 0x1000 ks ins).preCycle.takeError (.memoryBounds 0x1000), ?_, rfl, rfl, rfl⟩
  rw [step_of_running State.emptyRun_ne_halted hrun, cycle_of_fetch_error hfetch, afterCycles_takeError]

end Sys2Proof.Machine

namespace Sys2Proof

open Machine

/-- Settles O14: 1792 words of zeros lie between `ENTRY` and the end of memory. -/
theorem emptyImageRunsNoOpsToTheEnd : Obligations.EmptyImageRunsNoOpsToTheEnd := by
  refine ⟨construct_of_le (Nat.zero_le _), fun ins hlen hev => ?_⟩
  have hruns (k : Nat) (hk : k ≤ 1792) :=
    runSteps_emptyRun k 0x200 (Nat.le_refl _) (by omega) State.reset.keys (by omega : k ≤ ins.length) hev
  refine ⟨fun k hk => ?_, ?_⟩
  · obtain ⟨ks, hks⟩ := hruns k hk
    exact ⟨_, hks, State.emptyRun_pc_toNat (by omega) _ _, rfl, State.emptyRun_changesOnly _ _ _⟩
  · obtain ⟨ks, hks⟩ := hruns 1792 (Nat.le_refl _)
    obtain ⟨t, hstep, hend⟩ := step_emptyRun_end ks (ins := ins.drop 1792) fun i hi => hev i (List.mem_of_mem_drop hi)
    refine ⟨t, ?_, hend⟩
    exact (runSteps_add 1 hks).trans ((runSteps_one _).trans hstep)

end Sys2Proof
end

section
/-! DRW (43_display.md R99 to R102): its closed form, its error, what it reads, and the same sprite drawn twice. -/

namespace Sys2Proof.Machine

variable {cfg : Config.Params}

/-! ## The closed form -/

/-- The loops of a DRW, from the origin that the registers name and with the flag clear (R99). -/
def State.draw (s : State cfg) (x y : Reg) (n : Nibble) : Except RuntimeError (Drawing cfg) :=
  drawRows s.mem s.i.toNat (s.originY y) (s.originX x) (spriteHeight n) 0 { fb := s.fb, flag := false }

theorem spriteBit_eq_spriteAt (s : State cfg) (r c : Nat) :
    spriteBit (s.mem.byteAt cfg (s.i.toNat + r)) c = s.spriteAt r c :=
  spriteBit_eq _ _

/-- What a draw of this state leaves: the drawn pixels composited, the others as they were, and the collision flag (R101). -/
structure State.Drawn (s : State cfg) (x y : Reg) (n : Nibble) (d : Drawing cfg) : Prop where
  inside : ∀ r c, r < s.rowsDrawn y n → c < s.colsDrawn x →
    d.fb.pixel (s.originY y + r) (s.originX x + c) =
      xor (s.fb.pixel (s.originY y + r) (s.originX x + c)) (s.spriteAt r c)
  outside : ∀ py px, (∀ r c, r < s.rowsDrawn y n → c < s.colsDrawn x →
    ¬ (py = s.originY y + r ∧ px = s.originX x + c)) → d.fb.pixel py px = s.fb.pixel py px
  flag : d.flag = true ↔ ∃ r c, r < s.rowsDrawn y n ∧ c < s.colsDrawn x ∧ s.spriteAt r c = true ∧
    s.fb.pixel (s.originY y + r) (s.originX x + c) = true

theorem State.lt_rowsDrawn_iff (s : State cfg) (y : Reg) (n : Nibble) (r : Nat) :
    r < s.rowsDrawn y n ↔ r < n.toNat ∧ s.originY y + r < cfg.fbH := by
  simp only [State.rowsDrawn, State.originY, Nat.lt_min]
  omega

theorem State.lt_colsDrawn_iff (s : State cfg) (x : Reg) (c : Nat) :
    c < s.colsDrawn x ↔ c < 8 ∧ s.originX x + c < cfg.fbW := by
  simp only [State.colsDrawn, State.originX, Nat.lt_min]
  omega

/-- The loops of R99 that succeed leave R101's closed form. -/
theorem State.drawn_of_draw {s : State cfg} {x y : Reg} {n : Nibble} {d : Drawing cfg} (h : s.draw x y n = .ok d) :
    s.Drawn x y n d := by
  obtain ⟨hpixel, hflag⟩ := drawRows_spec h
  simp only [Nat.add_zero, Nat.zero_add, Nat.zero_le, true_and, spriteHeight, spriteBit_eq_spriteAt] at hpixel hflag
  refine ⟨fun r c hr hc => ?inside, fun py px hout => ?outside, ?flag⟩
  case inside =>
    rw [State.lt_rowsDrawn_iff] at hr
    rw [State.lt_colsDrawn_iff] at hc
    rw [hpixel, if_pos (by omega), Nat.add_sub_cancel_left, Nat.add_sub_cancel_left]
  case outside =>
    rw [hpixel, if_neg]
    rintro ⟨h1, h2, h3, h4, h5, h6⟩
    refine hout (py - s.originY y) (px - s.originX x) ?_ ?_ (by omega)
    · rw [State.lt_rowsDrawn_iff]; omega
    · rw [State.lt_colsDrawn_iff]; omega
  case flag =>
    rw [hflag]
    simp only [Bool.false_eq_true, false_or, State.lt_rowsDrawn_iff, State.lt_colsDrawn_iff, and_assoc]

/-- The state after a draw: the framebuffer, VF and `pc` written. -/
def State.afterDraw (s : State cfg) (d : Drawing cfg) : State cfg := (s.advancePc.setFb d.fb).setFlag d.flag

theorem exec_drw_of_ok {s : State} {x y : Reg} {n : Nibble} {d : Drawing Config.reference} (h : s.draw x y n = .ok d) :
    exec (.drw x y n) s = .next (s.afterDraw d) :=
  exec_of_body_ok (by rw [bodyOf_drw, ← State.draw, h]; rfl)

theorem exec_drw_of_error {s : State} {x y : Reg} {n : Nibble} {e : RuntimeError} (h : s.draw x y n = .error e) :
    exec (.drw x y n) s = .next (s.takeError e) :=
  exec_of_body_error (by rw [bodyOf_drw, ← State.draw, h])

theorem State.draw_of_inMemory {s : State cfg} (x : Reg) {y : Reg} {n : Nibble} (h : s.spriteInMemory y n) :
    ∃ d, s.draw x y n = .ok d :=
  drawRows_of_inMemory fun q _ hq hrow => h q ((s.lt_rowsDrawn_iff y n q).mpr ⟨by rwa [Nat.zero_add] at hq, hrow⟩)

/-- A DRW whose drawn rows lie in memory (R101). -/
theorem exec_drw {s : State} (x : Reg) {y : Reg} {n : Nibble} (h : s.spriteInMemory y n) :
    ∃ d, s.Drawn x y n d ∧ exec (.drw x y n) s = .next (s.afterDraw d) := by
  obtain ⟨d, hd⟩ := State.draw_of_inMemory x h
  exact ⟨d, State.drawn_of_draw hd, exec_drw_of_ok hd⟩

theorem State.afterDraw_changesOnly (s : State cfg) (d : Drawing cfg) : s.changesOnly (s.afterDraw d) [.fb, .v, .pc] :=
  State.changesOnly_mono (State.changesOnly_trans (State.changesOnly_trans s.advancePc_changesOnly
    (State.setFb_changesOnly _ d.fb)) (State.setV_changesOnly _ vf _)) (by simp)

@[simp] theorem State.getV_afterDraw_vf (s : State cfg) (d : Drawing cfg) : (s.afterDraw d).getV 15 = flagByte d.flag :=
  (State.getV_setFlag ..).trans (if_pos rfl)

theorem State.getV_afterDraw_of_ne (s : State cfg) (d : Drawing cfg) {q : Reg} (h : q ≠ 15) :
    (s.afterDraw d).getV q = s.getV q :=
  (State.getV_setFlag ..).trans (if_neg fun hq : vf = q => h hq.symm)

theorem flagByte_eq_one_iff (f : Bool) : flagByte f = 1 ↔ f = true := by cases f <;> decide

theorem flagByte_eq_zero_iff (f : Bool) : flagByte f = 0 ↔ f = false := by cases f <;> decide

theorem flagByte_toNat_le (f : Bool) : (flagByte f).toNat ≤ 1 := by cases f <;> decide

/-! ## What a draw reads -/

/-- The loops read no byte but those of the rows on the screen (R100). -/
theorem drawRows_congr {m m' : Memory} {base y0 x0 k r : Nat} {d : Drawing cfg}
    (h : ∀ q, r ≤ q → q < r + k → y0 + q < cfg.fbH → m.byteAt cfg (base + q) = m'.byteAt cfg (base + q)) :
    drawRows m base y0 x0 k r d = drawRows m' base y0 x0 k r d := by
  induction k generalizing r d with
  | zero => rfl
  | succ k ih =>
    unfold drawRows
    split
    · rfl
    · rename_i hgo
      rw [Memory.read_congr (h r (Nat.le_refl r) (by omega) (by omega))]
      split
      · rfl
      · exact ih fun q h1 h2 h3 => h q (by omega) (by omega) h3

theorem State.draw_withMem {x y : Reg} {n : Nibble} {s : State cfg} {m : Memory}
    (h : ∀ r, r < s.rowsDrawn y n → m.byteAt cfg (s.i.toNat + r) = s.byteAt (s.i.toNat + r)) :
    ({ s with mem := m } : State cfg).draw x y n = s.draw x y n :=
  drawRows_congr fun q _ hq hrow => h q ((s.lt_rowsDrawn_iff y n q).mpr ⟨by rwa [Nat.zero_add] at hq, hrow⟩)

/-! ## The same sprite drawn twice -/

theorem State.originX_afterDraw (s : State cfg) (d : Drawing cfg) {x : Reg} (h : x ≠ 15) :
    (s.afterDraw d).originX x = s.originX x := by
  rw [State.originX, State.originX, s.getV_afterDraw_of_ne d h]

theorem State.originY_afterDraw (s : State cfg) (d : Drawing cfg) {y : Reg} (h : y ≠ 15) :
    (s.afterDraw d).originY y = s.originY y := by
  rw [State.originY, State.originY, s.getV_afterDraw_of_ne d h]

theorem State.rowsDrawn_afterDraw (s : State cfg) (d : Drawing cfg) {y : Reg} (h : y ≠ 15) (n : Nibble) :
    (s.afterDraw d).rowsDrawn y n = s.rowsDrawn y n := by
  rw [State.rowsDrawn, State.rowsDrawn, s.getV_afterDraw_of_ne d h]

theorem State.colsDrawn_afterDraw (s : State cfg) (d : Drawing cfg) {x : Reg} (h : x ≠ 15) :
    (s.afterDraw d).colsDrawn x = s.colsDrawn x := by
  rw [State.colsDrawn, State.colsDrawn, s.getV_afterDraw_of_ne d h]

theorem State.spriteInMemory_afterDraw {s : State cfg} (d : Drawing cfg) {y : Reg} {n : Nibble} (hy : y ≠ 15)
    (h : s.spriteInMemory y n) : (s.afterDraw d).spriteInMemory y n :=
  fun r hr => h r (by rwa [s.rowsDrawn_afterDraw d hy] at hr)

/-- A draw of the same sprite at the same place, in the terms of the state before the first draw. -/
theorem State.Drawn.second {s : State cfg} {x y : Reg} {n : Nibble} {d e : Drawing cfg} (hx : x ≠ 15) (hy : y ≠ 15)
    (he : (s.afterDraw d).Drawn x y n e) : ({ s with fb := d.fb } : State cfg).Drawn x y n e := by
  obtain ⟨inside, outside, flag⟩ := he
  simp only [s.originX_afterDraw d hx, s.originY_afterDraw d hy, s.rowsDrawn_afterDraw d hy, s.colsDrawn_afterDraw d hx]
    at inside outside flag
  exact ⟨inside, outside, flag⟩

/-- Drawn twice, each pixel is XORed with its sprite bit twice (R102). -/
theorem State.Drawn.pixel_twice {s : State cfg} {x y : Reg} {n : Nibble} {d e : Drawing cfg} (hd : s.Drawn x y n d)
    (he : ({ s with fb := d.fb } : State cfg).Drawn x y n e) (py px : Nat) : e.fb.pixel py px = s.fb.pixel py px := by
  by_cases h : ∃ r c, r < s.rowsDrawn y n ∧ c < s.colsDrawn x ∧ py = s.originY y + r ∧ px = s.originX x + c
  · obtain ⟨r, c, hr, hc, rfl, rfl⟩ := h
    calc e.fb.pixel (s.originY y + r) (s.originX x + c)
        = xor (d.fb.pixel (s.originY y + r) (s.originX x + c)) (s.spriteAt r c) := he.inside r c hr hc
      _ = xor (xor (s.fb.pixel (s.originY y + r) (s.originX x + c)) (s.spriteAt r c)) (s.spriteAt r c) := by
          rw [hd.inside r c hr hc]
      _ = s.fb.pixel (s.originY y + r) (s.originX x + c) := by rw [Bool.xor_assoc, Bool.xor_self, Bool.xor_false]
  · have hout : ∀ r c, r < s.rowsDrawn y n → c < s.colsDrawn x → ¬ (py = s.originY y + r ∧ px = s.originX x + c) :=
      fun r c hr hc heq => h ⟨r, c, hr, hc, heq⟩
    exact (he.outside py px hout).trans (hd.outside py px hout)

/-- The second draw collides where the first turned a pixel on (R99, R101). -/
theorem State.Drawn.flag_twice {s : State cfg} {x y : Reg} {n : Nibble} {d e : Drawing cfg} (hd : s.Drawn x y n d)
    (he : ({ s with fb := d.fb } : State cfg).Drawn x y n e) :
    e.flag = true ↔ ∃ r c, r < s.rowsDrawn y n ∧ c < s.colsDrawn x ∧ s.spriteAt r c = true ∧
      s.fb.pixel (s.originY y + r) (s.originX x + c) = false := by
  refine he.flag.trans (exists_congr fun r => exists_congr fun c => and_congr_right fun hr => and_congr_right fun hc =>
    and_congr_right fun hbit => ?_)
  have hbit' : s.spriteAt r c = true := hbit
  change d.fb.pixel (s.originY y + r) (s.originX x + c) = true ↔ _
  rw [hd.inside r c hr hc, hbit', Bool.xor_true, Bool.not_eq_true']

/-- Where the first draw met no pixel that was on, the second's flag is whether there was a sprite bit of 1 at all. -/
theorem State.Drawn.flag_twice_of_no_collision {s : State cfg} {x y : Reg} {n : Nibble} {d e : Drawing cfg}
    (hd : s.Drawn x y n d) (he : ({ s with fb := d.fb } : State cfg).Drawn x y n e) (hflag : d.flag = false) :
    e.flag = true ↔ ∃ r c, r < s.rowsDrawn y n ∧ c < s.colsDrawn x ∧ s.spriteAt r c = true := by
  refine (hd.flag_twice he).trans (exists_congr fun r => exists_congr fun c => and_congr_right fun hr =>
    and_congr_right fun hc => and_iff_left_of_imp fun hbit => ?_)
  refine Bool.eq_false_of_not_eq_true fun hon => ?_
  rw [hd.flag.mpr ⟨r, c, hr, hc, hbit, hon⟩] at hflag
  cases hflag

/-- Where the second draw's flag is not that: a bit of 1 was drawn, and every one met a pixel that was on. -/
theorem State.Drawn.flag_twice_fails_iff {s : State cfg} {x y : Reg} {n : Nibble} {d e : Drawing cfg}
    (hd : s.Drawn x y n d) (he : ({ s with fb := d.fb } : State cfg).Drawn x y n e) :
    ¬(e.flag = true ↔ ∃ r c, r < s.rowsDrawn y n ∧ c < s.colsDrawn x ∧ s.spriteAt r c = true) ↔
      (∃ r c, r < s.rowsDrawn y n ∧ c < s.colsDrawn x ∧ s.spriteAt r c = true) ∧
      ∀ r c, r < s.rowsDrawn y n → c < s.colsDrawn x → s.spriteAt r c = true →
        s.fb.pixel (s.originY y + r) (s.originX x + c) = true := by
  have hdrawn : e.flag = true → ∃ r c, r < s.rowsDrawn y n ∧ c < s.colsDrawn x ∧ s.spriteAt r c = true := fun h => by
    obtain ⟨r, c, hr, hc, hbit, -⟩ := (hd.flag_twice he).mp h
    exact ⟨r, c, hr, hc, hbit⟩
  have hnone : ¬ e.flag = true ↔ ∀ r c, r < s.rowsDrawn y n → c < s.colsDrawn x → s.spriteAt r c = true →
      s.fb.pixel (s.originY y + r) (s.originX x + c) = true := by
    rw [hd.flag_twice he]
    simp only [not_exists, not_and, Bool.not_eq_false]
  rw [← hnone]
  constructor
  · intro hfails
    exact ⟨by_contra fun hnot => hfails ⟨hdrawn, fun h => absurd h hnot⟩, fun hflag => hfails ⟨hdrawn, fun _ => hflag⟩⟩
  · rintro ⟨hbit, hclear⟩ hiff
    exact hclear (hiff.mpr hbit)

/-- With VF as a coordinate register the second draw's origin is the first draw's flag (R102). -/
theorem State.origin_afterDraw_vf (s : State) (d : Drawing Config.reference) :
    (s.afterDraw d).originX 15 = ((s.afterDraw d).getV 15).toNat ∧
      (s.afterDraw d).originY 15 = ((s.afterDraw d).getV 15).toNat ∧ ((s.afterDraw d).getV 15).toNat ≤ 1 := by
  have hle : ((s.afterDraw d).getV 15).toNat ≤ 1 := by
    rw [s.getV_afterDraw_vf]
    exact flagByte_toNat_le d.flag
  exact ⟨Nat.mod_eq_of_lt (show _ < 64 by omega), Nat.mod_eq_of_lt (show _ < 32 by omega), hle⟩

/-- A state in which the first draw's VF moves the second draw: VF is 8, and the sprite is one bit. -/
def movingSprite : State :=
  { State.reset with mem := [(0x300, 0x80)], i := 0x300, v := State.reset.v.set 15 8 }

theorem movingSprite_inMemory (y : Reg) : movingSprite.spriteInMemory y 1 := by
  intro r hr
  obtain ⟨hlt, -⟩ := (State.lt_rowsDrawn_iff _ _ _ _).mp hr
  have hr1 : r < 1 := hlt
  change 0x300 + r < 4096
  omega

end Sys2Proof.Machine

namespace Sys2Proof

open Machine

/-- Settles O32: the loops' closed form, and the three fields a draw writes. -/
theorem drwComposesTheSprite : Obligations.DrwComposesTheSprite := by
  intro x y n s hmem
  obtain ⟨d, hd, hexec⟩ := exec_drw x hmem
  refine ⟨_, hexec, hd.inside, hd.outside, fun h => ?_, fun h => ?_, fun q hq => s.getV_afterDraw_of_ne d hq, rfl,
    s.afterDraw_changesOnly d⟩
  · rw [s.getV_afterDraw_vf, flagByte_eq_one_iff]
    exact hd.flag.mpr h
  · rw [s.getV_afterDraw_vf, flagByte_eq_zero_iff]
    exact Bool.eq_false_of_not_eq_true (mt hd.flag.mp h)

/-- Settles O33: the loops stop at the first row outside memory, and the error discards what they drew. -/
theorem drwOutsideMemoryHaltsTheCore : Obligations.DrwOutsideMemoryHaltsTheCore := by
  intro x y n r s hr hout hin
  obtain ⟨hn, hrow⟩ := (s.lt_rowsDrawn_iff y n r).mp hr
  have hdraw : s.draw x y n = .error (.memoryBounds (s.i.toNat + r)) :=
    drawRows_of_outside (Nat.zero_le r) (by rwa [Nat.zero_add]) hrow hout hin
  have hbody : bodyOf (.drw x y n) s.advancePc = .error (.memoryBounds (s.i.toNat + r)) := by
    rw [bodyOf_drw, ← State.draw, hdraw]
  exact ⟨hbody, _, exec_of_body_error hbody, s.takeError_haltedWith _⟩

/-- Settles O34: the loops end the same way, and neither end looks at memory. -/
theorem drwReadsOnlyItsDrawnRows : Obligations.DrwReadsOnlyItsDrawnRows := by
  intro x y n s t m hm h
  have hsame : ({ s with mem := m } : State).draw x y n = s.draw x y n := State.draw_withMem hm
  cases hdraw : s.draw x y n with
  | ok d =>
    rw [exec_drw_of_ok hdraw] at h
    injection h with h
    rw [exec_drw_of_ok (hsame.trans hdraw), ← h]
    rfl
  | error e =>
    rw [exec_drw_of_error hdraw] at h
    injection h with h
    rw [exec_drw_of_error (hsame.trans hdraw), ← h]
    rfl

/-- Settles O35: the draws' closed forms one after the other, and a sprite that VF moves between them. -/
theorem drawingTwiceRestoresTheScreen : Obligations.DrawingTwiceRestoresTheScreen := by
  refine ⟨fun x y n s hx hy hmem => ?twice, fun q n s t => ⟨fun hmem hexec => ?column, fun hmem hexec => ?row⟩, ?movedColumn,
    ?movedRow⟩
  case twice =>
    obtain ⟨d, hd, hfirst⟩ := exec_drw x hmem
    obtain ⟨e, he, hsecond⟩ := exec_drw x (State.spriteInMemory_afterDraw d hy hmem)
    have he' := he.second hx hy
    have hvf : ((s.afterDraw d).afterDraw e).getV 15 = 1 ↔ e.flag = true := by
      rw [State.getV_afterDraw_vf, flagByte_eq_one_iff]
    refine ⟨_, _, hfirst, hsecond, hd.pixel_twice he', hvf.trans (hd.flag_twice he'), fun hzero => ?_, ?_⟩
    · rw [State.getV_afterDraw_vf, flagByte_eq_zero_iff] at hzero
      exact hvf.trans (hd.flag_twice_of_no_collision he' hzero)
    · rw [hvf]
      exact hd.flag_twice_fails_iff he'
  case column =>
    obtain ⟨d, -, hd⟩ := exec_drw 15 hmem
    rw [hd] at hexec
    injection hexec with hexec
    obtain ⟨hX, -, hle⟩ := s.origin_afterDraw_vf d
    exact hexec ▸ ⟨hX, hle⟩
  case row =>
    obtain ⟨d, -, hd⟩ := exec_drw q hmem
    rw [hd] at hexec
    injection hexec with hexec
    obtain ⟨-, hY, hle⟩ := s.origin_afterDraw_vf d
    exact hexec ▸ ⟨hY, hle⟩
  case movedColumn =>
    exact ⟨movingSprite, _, _, movingSprite_inMemory 0, rfl, rfl, by decide⟩
  case movedRow =>
    exact ⟨movingSprite, _, _, movingSprite_inMemory 15, rfl, rfl, by decide⟩

end Sys2Proof
end

section
/-! What no instruction observes: the keys and the timers (10_state.md R34, R35), and the stack slots at or above SP (R32). -/

namespace Sys2Proof.Machine

variable {cfg : Config.Params}

/-- DRW's body writes what its loops drew. -/
theorem drwBody_eq_map (x y : Reg) (n : Nibble) (s : State cfg) :
    drwBody x y n s = (s.draw x y n).map fun d => (s.setFb d.fb).setFlag d.flag := by
  rw [drwBody, ← State.draw]
  cases s.draw x y n <;> rfl

/-! ## Keys and timers -/

/-- The state with other keys and timers. -/
def State.withKeysTimers (s : State cfg) (ks : Vector Bool Config.nkeys) (d e : Byte) : State cfg :=
  { s with keys := ks, dt := d, st := e }

theorem retBody_withKeysTimers (s : State cfg) (ks : Vector Bool Config.nkeys) (d e : Byte) :
    retBody (s.withKeysTimers ks d e) = (retBody s).map (·.withKeysTimers ks d e) := by
  by_cases h : s.sp.val = 0
  · rw [retBody_of_empty h, retBody_of_empty (s := s.withKeysTimers ks d e) h]
    rfl
  · have hpos : 0 < s.sp.val := Nat.pos_of_ne_zero h
    simp only [retBody, State.pop_of_pos hpos, State.pop_of_pos (s := s.withKeysTimers ks d e) hpos]
    rfl

theorem callBody_withKeysTimers (nnn : Addr12) (s : State cfg) (ks : Vector Bool Config.nkeys) (d e : Byte) :
    callBody nnn (s.withKeysTimers ks d e) = (callBody nnn s).map (·.withKeysTimers ks d e) := by
  by_cases h : s.sp.val < cfg.stackDepth
  · simp only [callBody, State.push_of_lt h, State.push_of_lt (s := s.withKeysTimers ks d e) h]
    rfl
  · have hfull : s.sp.val = cfg.stackDepth := by have := s.sp.isLt; omega
    rw [callBody_of_full hfull, callBody_of_full (s := s.withKeysTimers ks d e) hfull]
    rfl

theorem drwBody_withKeysTimers (x y : Reg) (n : Nibble) (s : State cfg) (ks : Vector Bool Config.nkeys) (d e : Byte) :
    drwBody x y n (s.withKeysTimers ks d e) = (drwBody x y n s).map (·.withKeysTimers ks d e) := by
  rw [drwBody_eq_map, drwBody_eq_map, show (s.withKeysTimers ks d e).draw x y n = s.draw x y n from rfl]
  cases s.draw x y n <;> rfl

/-- A body does with other keys and timers what it does without them, and leaves them. -/
theorem bodyOf_withKeysTimers (i : Instr) (s : State cfg) (ks : Vector Bool Config.nkeys) (d e : Byte) :
    bodyOf i (s.withKeysTimers ks d e) = (bodyOf i s).map (·.withKeysTimers ks d e) := by
  cases i with
  | ret => exact retBody_withKeysTimers s ks d e
  | call nnn => exact callBody_withKeysTimers nnn s ks d e
  | drw x y n => exact drwBody_withKeysTimers x y n s ks d e
  | seByte x nn =>
    rw [bodyOf, bodyOf, show (s.withKeysTimers ks d e).equalsImm x nn = s.equalsImm x nn from rfl]
    cases s.equalsImm x nn <;> rfl
  | _ => rfl

theorem exec_withKeysTimers {i : Instr} {s t : State} (ks : Vector Bool Config.nkeys) (d e : Byte) (h : exec i s = .next t) :
    exec i (s.withKeysTimers ks d e) = .next (t.withKeysTimers ks d e) := by
  have hbody : bodyOf i (s.withKeysTimers ks d e).advancePc = (bodyOf i s.advancePc).map (·.withKeysTimers ks d e) :=
    bodyOf_withKeysTimers i s.advancePc ks d e
  rcases exec_next_iff.mp h with hok | ⟨err, herr, rfl⟩
  · exact exec_of_body_ok (by rw [hbody, hok]; rfl)
  · exact exec_of_body_error (by rw [hbody, herr]; rfl)

/-! ## Stack slots at or above SP -/

/-- The state with other contents in the stack's slots. -/
def State.withStack (s : State cfg) (o : Vector Word cfg.stackDepth) : State cfg := { s with stack := o }

@[simp] theorem State.withStack_stack (s : State cfg) (o : Vector Word cfg.stackDepth) : (s.withStack o).stack = o := rfl
@[simp] theorem State.withStack_sp (s : State cfg) (o : Vector Word cfg.stackDepth) : (s.withStack o).sp = s.sp := rfl

/-- Slots that hold what the valid entries of a state hold. -/
def State.validIn (s : State cfg) (o : Vector Word cfg.stackDepth) : Prop := ∀ k, k < s.sp.val → o[k]? = s.stack[k]?

/-- RET reads the top valid entry alone. -/
theorem retBody_withStack {s : State cfg} {o : Vector Word cfg.stackDepth} (h : s.validIn o) :
    retBody (s.withStack o) = (retBody s).map (·.withStack o) := by
  by_cases hsp : s.sp.val = 0
  · rw [retBody_of_empty hsp, retBody_of_empty (s := s.withStack o) hsp]
    rfl
  · have hpos : 0 < s.sp.val := Nat.pos_of_ne_zero hsp
    have hlt : s.sp.val - 1 < cfg.stackDepth := by have := s.sp.isLt; omega
    have htop : o[s.sp.val - 1] = s.stack[s.sp.val - 1] := by
      have := h (s.sp.val - 1) (by omega)
      rwa [Vector.getElem?_eq_getElem hlt, Vector.getElem?_eq_getElem hlt, Option.some_inj] at this
    simp only [retBody, State.pop_of_pos hpos, State.pop_of_pos (s := s.withStack o) hpos, State.withStack_stack,
      State.withStack_sp, htop]
    rfl

/-- CALL reads no slot. -/
theorem callBody_withStack {nnn : Addr12} {s t : State cfg} {o : Vector Word cfg.stackDepth} (h : s.validIn o)
    (hs : callBody nnn s = .ok t) : ∃ o', callBody nnn (s.withStack o) = .ok (t.withStack o') ∧ t.validIn o' := by
  obtain ⟨hsp, htop, hothers, ht⟩ := callBody_eq_ok hs
  have hroom : s.sp.val < cfg.stackDepth := by have := t.sp.isLt; omega
  obtain ⟨u, hu⟩ := callBody_of_lt (nnn := nnn) (s := s.withStack o) hroom
  obtain ⟨hsp', htop', hothers', hu'⟩ := callBody_eq_ok hu
  have hspu : u.sp = t.sp := Fin.ext (hsp'.trans hsp.symm)
  refine ⟨u.stack, ?_, fun k hk => ?_⟩
  · rw [hu, hu', ht, hspu]
    rfl
  · by_cases hks : k = s.sp.val
    · rw [hks, htop]
      exact htop'
    · rw [hothers k hks]
      exact (hothers' k hks).trans (h k (by omega))

/-- A body run with other contents in the slots above the valid entries ends the same way, but for such slots. -/
theorem bodyOf_withStack (i : Instr) {s : State cfg} {o : Vector Word cfg.stackDepth} (h : s.validIn o) :
    ∃ o', bodyOf i (s.withStack o) = (bodyOf i s).map (·.withStack o') ∧ ∀ t, bodyOf i s = .ok t → t.validIn o' := by
  cases i with
  | ret =>
    refine ⟨o, retBody_withStack h, fun t ht k hk => ?_⟩
    obtain ⟨hsp, -, ht'⟩ := retBody_eq_ok ht
    rw [ht']
    exact h k (by omega)
  | call nnn =>
    by_cases hroom : s.sp.val < cfg.stackDepth
    · obtain ⟨t, hs⟩ := callBody_of_lt (nnn := nnn) hroom
      obtain ⟨o', ho', hvalid⟩ := callBody_withStack h hs
      rw [bodyOf, bodyOf, hs, ho']
      refine ⟨o', rfl, fun u hu => ?_⟩
      injection hu with hu
      exact hu ▸ hvalid
    · have hfull : s.sp.val = cfg.stackDepth := by have := s.sp.isLt; omega
      rw [bodyOf, bodyOf, callBody_of_full hfull, callBody_of_full (s := s.withStack o) hfull]
      exact ⟨o, rfl, fun t ht => by cases ht⟩
  | drw x y n =>
    refine ⟨o, ?_, fun t ht => ?_⟩
    · rw [bodyOf, bodyOf, drwBody_eq_map, drwBody_eq_map, show (s.withStack o).draw x y n = s.draw x y n from rfl]
      cases s.draw x y n <;> rfl
    · obtain ⟨d, -, rfl⟩ := drwBody_eq_ok ht
      exact h
  | seByte x nn =>
    rw [bodyOf, bodyOf, show (s.withStack o).equalsImm x nn = s.equalsImm x nn from rfl]
    cases s.equalsImm x nn <;> exact ⟨o, rfl, fun t ht => by injection ht with ht; subst ht; exact h⟩
  | _ => exact ⟨o, rfl, fun t ht => by injection ht with ht; subst ht; exact h⟩

theorem cycle_withStack {s t : State cfg} {o : Vector Word cfg.stackDepth} (h : s.validIn o) (hs : cycle s = .next t) :
    ∃ o', cycle (s.withStack o) = .next (t.withStack o') ∧ t.validIn o' := by
  cases hf : s.fetch with
  | error e =>
    rw [cycle_of_fetch_error hf] at hs
    injection hs with hs
    subst hs
    exact ⟨o, cycle_of_fetch_error (s := s.withStack o) hf, h⟩
  | ok w =>
    rw [cycle_of_fetch hf] at hs
    rw [cycle_of_fetch (s := s.withStack o) hf]
    obtain ⟨o', hbody, hvalid⟩ := bodyOf_withStack (decodeWith cfg.zeroFamilyMatch w) (s := s.advancePc) h
    change bodyOf _ (s.withStack o).advancePc = _ at hbody
    rcases execute_next_iff.mp hs with hok | ⟨e, herr, rfl⟩
    · exact ⟨o', execute_next_iff.mpr (.inl (by rw [hbody, hok]; rfl)), hvalid t hok⟩
    · exact ⟨o, execute_next_iff.mpr (.inr ⟨e, by rw [hbody, herr]; rfl, rfl⟩), h⟩

theorem runTick_of_not_running {s : State cfg} (h : s.run ≠ .running) : runTick s = .next s := by
  unfold runTick
  split
  · rfl
  · rfl
  · rename_i hrun
    exact absurd hrun h

/-- A step from a state with other contents in the slots above the valid entries. -/
theorem step_withStack {s t : State} {o : Vector Word 12} (h : s.validIn o) (hs : step s = .next t) :
    ∃ o' : Vector Word 12, step (s.withStack o) = .next (t.withStack o') ∧ t.validIn o' := by
  have hpre : (s.withStack o).preCycle = s.preCycle.withStack o := rfl
  by_cases hhalt : s.run = .halted
  · rw [step_of_halted hhalt] at hs
    injection hs with hs
    subst hs
    exact ⟨o, step_of_halted (s := s.withStack o) hhalt, h⟩
  by_cases hrun : s.preCycle.run = .running
  · obtain ⟨u, hu⟩ := cycle_answers s.preCycle
    obtain ⟨o', ho', hvalid⟩ := cycle_withStack (s := s.preCycle) h hu
    rw [step_of_running hhalt hrun, hu, afterCycles_next] at hs
    injection hs with hs
    refine ⟨o', ?_, ?_⟩
    · rw [step_of_running (s := s.withStack o) hhalt hrun, hpre, ho', afterCycles_next, ← hs,
        show (u.withStack o').run = u.run from rfl]
      split <;> rfl
    · rw [← hs]
      split
      · exact hvalid
      · exact hvalid
  · rw [step_eq_runTick hhalt, runTick_of_not_running hrun] at hs
    injection hs with hs
    subst hs
    refine ⟨o, ?_, h⟩
    rw [step_eq_runTick (s := s.withStack o) hhalt, hpre]
    exact runTick_of_not_running (s := s.preCycle.withStack o) hrun

end Sys2Proof.Machine

namespace Sys2Proof

open Machine

/-- Settles O55: each body does the same with other keys and timers, and an error takes neither. -/
theorem keysAndTimersAreUnobservable : Obligations.KeysAndTimersAreUnobservable :=
  fun _ _ _ ks d e h => exec_withKeysTimers ks d e h

/-- Settles O56: RET reads a valid entry and CALL none, and nothing else of a step looks at the stack. -/
theorem staleStackSlotsAreUnobservable : Obligations.StaleStackSlotsAreUnobservable :=
  fun _ _ _ h hs => step_withStack h hs

end Sys2Proof
end

section
/-! Placing a word for the next step (the model's own convention, notes/assumptions/18.md and 19.md). -/

namespace Sys2Proof.Machine

variable {cfg : Config.Params}

theorem State.willFetch_iff (s : State cfg) :
    s.willFetch = true ↔ s.run.applyEvents s.hostInput.events = .running ∧ s.pc.toNat + 1 < cfg.memSize := by
  simp [State.willFetch]

/-- A state made ready is one whose coming tick executes an instruction, with the same memory. -/
theorem State.readyToFetch_willFetch (s : State) : s.readyToFetch.willFetch = true ∧ s.readyToFetch.mem = s.mem := by
  unfold State.readyToFetch
  split
  next h => exact ⟨h, rfl⟩
  next h =>
    refine ⟨(State.willFetch_iff _).mpr ⟨rfl, ?_⟩, rfl⟩
    change (if s.pc.toNat + 1 < 4096 then s.pc else BitVec.ofNat 16 0x200).toNat + 1 < 4096
    split
    next hpc => exact hpc
    next => decide

theorem State.readyToFetch_of_willFetch {s : State cfg} (h : s.willFetch = true) : s.readyToFetch = s := if_pos h

/-- A word stored at `pc` is what a fetch finds there. -/
theorem State.fetch_storeWordAtPc {s : State} {w : Word} (hm : s.mem.wf Config.reference = true)
    (hpc : s.pc.toNat + 1 < 4096) : (s.storeWordAtPc w).fetch = .ok w := by
  have hwf := Memory.wf_write (v := highByte w) hm (show s.pc.toNat < Config.reference.memSize from Nat.lt_of_succ_lt hpc)
  have hhi : (s.storeWordAtPc w).mem.byteAt Config.reference s.pc.toNat = highByte w :=
    (Memory.byteAt_write_of_ne (by omega)).trans (Memory.byteAt_write_self hm)
  have hlo : (s.storeWordAtPc w).mem.byteAt Config.reference (s.pc.toNat + 1) = lowByte w := Memory.byteAt_write_self hwf
  rw [State.fetch_of_inside (s := s.storeWordAtPc w) hpc, show (s.storeWordAtPc w).pc = s.pc from rfl, hhi, hlo,
    wordOfBytes_split]

theorem State.readByte_storeWordAtPc_of_ne {s : State cfg} {w : Word} {a : Nat} (h0 : a ≠ s.pc.toNat)
    (h1 : a ≠ s.pc.toNat + 1) : (s.storeWordAtPc w).readByte a = s.readByte a :=
  Memory.read_congr ((Memory.byteAt_write_of_ne h1).trans (Memory.byteAt_write_of_ne h0))

theorem State.storeWordAtPc_changesOnly (s : State cfg) (w : Word) : s.changesOnly (s.storeWordAtPc w) [.mem] := by
  intro f hf
  cases f with
  | mem => simp at hf
  | v => exact fun _ => rfl
  | i | pc | stack | sp | fb | keys | dt | st | run | err | inputs => rfl

/-- A word numbered as the opcode table numbers it is itself. -/
theorem tableWord_toNat (w : Word) : tableWord 16 w.toNat = w := by
  rw [tableWord, Nat.mod_eq_of_lt w.isLt, BitVec.ofNat_toNat, BitVec.setWidth_eq]

theorem State.withFetchWord_toNat (s : State) (w : Word) : s.withFetchWord 16 w.toNat = s.readyToFetch.storeWordAtPc w := by
  rw [State.withFetchWord, tableWord_toNat]

theorem RunState.ne_halted_of_applyEvents {r : RunState} {es : List HostEvent} (h : r.applyEvents es = .running) :
    r ≠ .halted := by
  rintro rfl
  rw [applyEvents_halted] at h
  cases h

/-- The step of a state whose coming tick fetches a word: its instruction, and then the timer step unless that halted it. -/
theorem step_of_fetch {s t : State} {w : Word} (hrun : s.preCycle.run = .running) (hfetch : s.preCycle.fetch = .ok w)
    (hexec : exec (decode w) s.preCycle = .next t) : step s = .next (if t.run = .halted then t else t.timerTick) := by
  have hcycle : cycle s.preCycle = .next t := by
    rw [cycle_of_fetch hfetch, ← exec_eq_execute]
    exact hexec
  have hne : s.run ≠ .halted := RunState.ne_halted_of_applyEvents hrun
  rw [step_of_running hne hrun, hcycle, afterCycles_next]

end Sys2Proof.Machine

namespace Sys2Proof

open Machine

/-- Settles O57: the coming tick of a state made ready fetches the word stored at its `pc`. -/
theorem placedWordIsTheNextInstruction : Obligations.PlacedWordIsTheNextInstruction := by
  intro s w hwf
  rw [s.withFetchWord_toNat w]
  refine ⟨?_, fun hrun hpc => ?_⟩
  · obtain ⟨hready, hmem⟩ := s.readyToFetch_willFetch
    obtain ⟨hrun, hpc⟩ := (State.willFetch_iff _).mp hready
    have hfetch : (s.readyToFetch.storeWordAtPc w).preCycle.fetch = .ok w :=
      State.fetch_storeWordAtPc (hmem ▸ hwf) hpc
    obtain ⟨t, ht⟩ := exec_answers (decode w) (s.readyToFetch.storeWordAtPc w).preCycle
    exact ⟨t, ht, step_of_fetch (s := s.readyToFetch.storeWordAtPc w) hrun hfetch ht⟩
  · rw [State.readyToFetch_of_willFetch ((State.willFetch_iff s).mpr ⟨hrun, hpc⟩)]
    exact ⟨s.storeWordAtPc_changesOnly w, fun a h0 h1 => State.readByte_storeWordAtPc_of_ne h0 h1⟩

end Sys2Proof
end

section
/-! The configurations (00_scope.md R6, R7), and the setting `unwritten` of `REG_RESET` (92_eei_decisions.md D7). -/

namespace Sys2Proof.Machine

variable {cfg : Config.Params}

/-! ## What a tick with the check can do -/

/-- The timer step that follows the cycles, unless they halted the core (40_engine.md R74). -/
def Tracked.afterCycles (p : Tracked cfg) : Tracked cfg :=
  if p.state.run = .halted then p else { p with state := p.state.timerTick }

theorem Tracked.runTick_of_not_running {t : Tracked cfg} (h : t.state.run ≠ .running) : t.runTick = .next t := by
  unfold Tracked.runTick
  split
  · rfl
  · rfl
  next hrun => exact absurd hrun h

theorem Tracked.runTick_of_cycles {t p : Tracked cfg} (h : t.state.run = .running)
    (hp : Tracked.cycles cfg.cyclesPerTick t = .next p) : t.runTick = .next p.afterCycles := by
  simp only [Tracked.runTick, h, hp, Tracked.afterCycles]
  split <;> rfl

/-- A tick with the check that is not refused: it runs no cycle, or all its cycles answer. -/
theorem Tracked.runTick_cases {t u : Tracked cfg} (h : t.runTick = .next u) :
    (t.state.run ≠ .running ∧ u = t) ∨
      (t.state.run = .running ∧ ∃ p, Tracked.cycles cfg.cyclesPerTick t = .next p ∧ u = p.afterCycles) := by
  by_cases hrun : t.state.run = .running
  · cases hp : Tracked.cycles cfg.cyclesPerTick t with
    | next p =>
      rw [Tracked.runTick_of_cycles hrun hp] at h
      injection h with h
      exact .inr ⟨hrun, p, rfl, h.symm⟩
    | fault e => simp [Tracked.runTick, hrun, hp] at h
    | refused e => simp [Tracked.runTick, hrun, hp] at h
  · rw [Tracked.runTick_of_not_running hrun] at h
    injection h with h
    exact .inl ⟨hrun, h.symm⟩

/-- Several cycles with the check, none refused: the first one, and the others unless it halted the core. -/
theorem Tracked.cycles_succ_eq_next_iff {n : Nat} {t u : Tracked cfg} :
    Tracked.cycles (n + 1) t = .next u ↔
      ∃ p, t.cycle = .next p ∧ ((p.state.run = .halted ∧ u = p) ∨
        (p.state.run ≠ .halted ∧ Tracked.cycles n p = .next u)) := by
  rw [Tracked.cycles]
  cases hc : t.cycle with
  | next p =>
    by_cases hp : p.state.run = .halted
    · simp [hp, eq_comm]
    · simp [hp]
  | fault e => simp
  | refused e => simp

/-- The state in which a tick's cycles start. -/
def Tracked.preCycle (t : Tracked cfg) : Tracked cfg := { t with state := t.state.preCycle }

theorem Tracked.step_of_halted {t : Tracked cfg} (h : t.state.run = .halted) : t.step = .next t := if_pos h

theorem Tracked.step_of_not_halted {t : Tracked cfg} (h : t.state.run ≠ .halted) : t.step = t.preCycle.runTick := if_neg h

/-! ## The machine with the check is the machine without it -/

theorem Tracked.cycles_state {n : Nat} {t u : Tracked cfg} (h : Tracked.cycles n t = .next u) :
    Machine.cycles n t.state = .next u.state := by
  induction n generalizing t with
  | zero =>
    injection h with h
    rw [h]
    rfl
  | succ n ih =>
    obtain ⟨p, hp, ⟨hhalt, rfl⟩ | ⟨hgo, hrest⟩⟩ := Tracked.cycles_succ_eq_next_iff.mp h
    · simp only [Machine.cycles, Tracked.cycle_state hp, if_pos hhalt]
    · simp only [Machine.cycles, Tracked.cycle_state hp, if_neg hgo, ih hrest]

theorem Tracked.runTick_state {t u : Tracked cfg} (h : t.runTick = .next u) : Machine.runTick t.state = .next u.state := by
  rcases Tracked.runTick_cases h with ⟨hrun, rfl⟩ | ⟨hrun, p, hp, rfl⟩
  · exact Machine.runTick_of_not_running hrun
  · simp only [Machine.runTick, hrun, Tracked.cycles_state hp, afterCycles_next, Tracked.afterCycles]
    split <;> rfl

theorem Tracked.step_state {t u : Tracked cfg} (h : t.step = .next u) : scriptedTick t.state = .next u.state := by
  by_cases hhalt : t.state.run = .halted
  · rw [Tracked.step_of_halted hhalt] at h
    injection h with h
    rw [scriptedTick, if_pos hhalt, h]
  · rw [Tracked.step_of_not_halted hhalt] at h
    rw [scriptedTick, if_neg hhalt, tick_of_not_halted (s := t.state.dropInput) hhalt]
    exact Tracked.runTick_state h

/-! ## What an unwritten register holds -/

/-- The state with other contents of V0 to VF and I. -/
def Tracked.withRegs (t : Tracked cfg) (v : Vector Byte Config.nregs) (i : Word) : Tracked cfg :=
  { t with state := t.state.withRegs v i }

/-- Contents that agree with the state's in every register that has been written. -/
def Tracked.agreesOnWritten (t : Tracked cfg) (v : Vector Byte Config.nregs) (i : Word) : Prop :=
  (∀ r : Reg, t.vWritten[r.val] = true → v[r.val] = t.state.v[r.val]) ∧ (t.iWritten = true → i = t.state.i)

/-- What an instruction may read, it finds. -/
theorem Tracked.agreesOnWritten.reads {t : Tracked cfg} {v : Vector Byte Config.nregs} {j : Word}
    (h : t.agreesOnWritten v j) {i : Instr} (hr : t.readable i = true) :
    (∀ r ∈ readsV i, v[r.val] = t.state.v[r.val]) ∧ (readsI i = true → j = t.state.i) := by
  simp only [Tracked.readable, Bool.and_eq_true, List.all_eq_true, Bool.or_eq_true, Bool.not_eq_true'] at hr
  obtain ⟨hv, hi⟩ := hr
  refine ⟨fun r hmem => h.1 r (hv r hmem), fun hreads => h.2 (hi.resolve_left ?_)⟩
  rw [hreads]
  decide

theorem Tracked.cycle_of_error {t : Tracked cfg} {e : RuntimeError} (h : t.state.fetch = .error e) :
    t.cycle = .next { t with state := t.state.takeError e } := by
  simp only [Tracked.cycle, h]

theorem Tracked.cycle_of_execute {t : Tracked cfg} {w : Word} {s : State cfg} (hf : t.state.fetch = .ok w)
    (hr : t.readable (decodeWith cfg.zeroFamilyMatch w) = true)
    (hs : execute (decodeWith cfg.zeroFamilyMatch w) t.state = .next s) :
    t.cycle = .next (if s.run = .halted then { t with state := s } else t.mark (decodeWith cfg.zeroFamilyMatch w) s) := by
  simp only [Tracked.cycle, hf, hr, hs, if_true]
  split <;> rfl

/-- An instruction executed with other contents in registers it does not read: what it wrote, and the other contents. -/
theorem execute_withRegs {i : Instr} {s t : State cfg} {v : Vector Byte Config.nregs} {j : Word}
    (hv : ∀ r ∈ readsV i, v[r.val] = s.v[r.val]) (hi : readsI i = true → j = s.i) (h : execute i s = .next t) :
    ∃ v' j', execute i (s.withRegs v j) = .next (t.withRegs v' j') ∧
      (∀ r : Reg, v[r.val] = s.v[r.val] → v'[r.val] = t.v[r.val]) ∧ (j = s.i → j' = t.i) ∧
      (t.run ≠ .halted → (∀ r ∈ writesV i, v'[r.val] = t.v[r.val]) ∧ (writesI i = true → j' = t.i)) := by
  obtain ⟨herror, hok⟩ := bodyOf_withRegs (s := s.advancePc) hv hi
  rcases execute_next_iff.mp h with hbody | ⟨e, hbody, rfl⟩
  · obtain ⟨v', j', hbody', hregs, hidx⟩ := hok t hbody
    refine ⟨v', j', execute_next_iff.mpr (.inl hbody'), fun r hr => ?_, fun hj => ?_, fun _ => ⟨fun r hr => ?_, fun hw => ?_⟩⟩
    · rcases hregs r with ⟨-, heq⟩ | ⟨-, hkeep, hsame⟩
      · exact heq
      · rw [hkeep, hsame]; exact hr
    · rcases hidx with ⟨-, heq⟩ | ⟨-, hkeep, hsame⟩
      · exact heq
      · rw [hkeep, hsame]; exact hj
    · exact ((hregs r).resolve_right fun hno => hno.1 hr).2
    · exact (hidx.resolve_right fun hno => by rw [hw] at hno; exact absurd hno.1 (by decide)).2
  · exact ⟨v, j, execute_next_iff.mpr (.inr ⟨e, herror e hbody, rfl⟩), fun _ hr => hr, fun hj => hj,
      fun hrun => absurd rfl hrun⟩

theorem Tracked.mark_iWritten (t : Tracked cfg) (i : Instr) (s : State cfg) :
    (t.mark i s).iWritten = true ↔ t.iWritten = true ∨ writesI i = true := by
  simp only [Tracked.mark, Bool.or_eq_true]

/-- A cycle with the check does not observe what an unwritten register holds. -/
theorem Tracked.cycle_withRegs {t u : Tracked cfg} {v : Vector Byte Config.nregs} {j : Word} (h : t.agreesOnWritten v j)
    (hu : t.cycle = .next u) : ∃ v' j', (t.withRegs v j).cycle = .next (u.withRegs v' j') ∧ u.agreesOnWritten v' j' := by
  rcases t.cycle_cases with ⟨e, hf, hc⟩ | ⟨w, -, -, hc⟩ | ⟨w, s, hf, hr, hs, -⟩
  · rw [hc] at hu
    injection hu with hu
    subst hu
    exact ⟨v, j, Tracked.cycle_of_error (t := t.withRegs v j) hf, h⟩
  · rw [hc] at hu
    cases hu
  · obtain ⟨hv, hi⟩ := h.reads hr
    obtain ⟨v', j', hs', hkept, hkeptI, hwritten⟩ := execute_withRegs hv hi hs
    rw [Tracked.cycle_of_execute hf hr hs] at hu
    injection hu with hu
    refine ⟨v', j', ?_, ?_⟩
    · rw [Tracked.cycle_of_execute (t := t.withRegs v j) hf hr hs', ← hu, State.withRegs_run]
      split <;> rfl
    · rw [← hu]
      split
      next => exact ⟨fun r hr => hkept r (h.1 r hr), fun hw => hkeptI (h.2 hw)⟩
      next hrun =>
        obtain ⟨hwV, hwI⟩ := hwritten hrun
        refine ⟨fun r hr => ?_, fun hw => ?_⟩
        · exact ((t.mark_vWritten _ s r).mp hr).elim (hwV r) fun hr => hkept r (h.1 r hr)
        · exact ((t.mark_iWritten _ s).mp hw).elim (fun hw => hkeptI (h.2 hw)) hwI

theorem Tracked.cycles_withRegs {n : Nat} {t u : Tracked cfg} {v : Vector Byte Config.nregs} {j : Word}
    (h : t.agreesOnWritten v j) (hu : Tracked.cycles n t = .next u) :
    ∃ v' j', Tracked.cycles n (t.withRegs v j) = .next (u.withRegs v' j') ∧ u.agreesOnWritten v' j' := by
  induction n generalizing t v j with
  | zero =>
    injection hu with hu
    subst hu
    exact ⟨v, j, rfl, h⟩
  | succ n ih =>
    obtain ⟨p, hp, hend⟩ := Tracked.cycles_succ_eq_next_iff.mp hu
    obtain ⟨v', j', hp', hagree⟩ := Tracked.cycle_withRegs h hp
    rcases hend with ⟨hhalt, rfl⟩ | ⟨hgo, hrest⟩
    · exact ⟨v', j', Tracked.cycles_succ_eq_next_iff.mpr ⟨_, hp', .inl ⟨hhalt, rfl⟩⟩, hagree⟩
    · obtain ⟨v'', j'', hrest', hagree'⟩ := ih hagree hrest
      exact ⟨v'', j'', Tracked.cycles_succ_eq_next_iff.mpr ⟨_, hp', .inr ⟨hgo, hrest'⟩⟩, hagree'⟩

theorem Tracked.afterCycles_withRegs (p : Tracked cfg) (v : Vector Byte Config.nregs) (j : Word) :
    (p.withRegs v j).afterCycles = p.afterCycles.withRegs v j := by
  unfold Tracked.afterCycles
  rw [show (p.withRegs v j).state.run = p.state.run from rfl]
  split <;> rfl

theorem Tracked.agreesOnWritten.afterCycles {p : Tracked cfg} {v : Vector Byte Config.nregs} {j : Word}
    (h : p.agreesOnWritten v j) : p.afterCycles.agreesOnWritten v j := by
  unfold Tracked.afterCycles
  split
  · exact h
  · exact h

theorem Tracked.runTick_withRegs {t u : Tracked cfg} {v : Vector Byte Config.nregs} {j : Word}
    (h : t.agreesOnWritten v j) (hu : t.runTick = .next u) :
    ∃ v' j', (t.withRegs v j).runTick = .next (u.withRegs v' j') ∧ u.agreesOnWritten v' j' := by
  rcases Tracked.runTick_cases hu with ⟨hrun, rfl⟩ | ⟨hrun, p, hp, rfl⟩
  · exact ⟨v, j, Tracked.runTick_of_not_running (t := u.withRegs v j) hrun, h⟩
  · obtain ⟨v', j', hp', hagree⟩ := Tracked.cycles_withRegs h hp
    refine ⟨v', j', ?_, hagree.afterCycles⟩
    rw [Tracked.runTick_of_cycles (t := t.withRegs v j) hrun hp', Tracked.afterCycles_withRegs]

/-- A step with the check does not observe what an unwritten register holds. -/
theorem Tracked.step_withRegs {t u : Tracked cfg} {v : Vector Byte Config.nregs} {j : Word} (h : t.agreesOnWritten v j)
    (hu : t.step = .next u) : ∃ v' j', (t.withRegs v j).step = .next (u.withRegs v' j') ∧ u.agreesOnWritten v' j' := by
  by_cases hhalt : t.state.run = .halted
  · rw [Tracked.step_of_halted hhalt] at hu
    injection hu with hu
    subst hu
    exact ⟨v, j, Tracked.step_of_halted (t := t.withRegs v j) hhalt, h⟩
  · rw [Tracked.step_of_not_halted hhalt] at hu
    rw [Tracked.step_of_not_halted (t := t.withRegs v j) hhalt]
    exact Tracked.runTick_withRegs (t := t.preCycle) h hu

/-- A cycle is refused by the check alone. -/
theorem Tracked.cycle_refused_iff (t : Tracked cfg) :
    t.cycle = .refused .unwrittenRegister ↔
      ∃ w, t.state.fetch = .ok w ∧ t.readable (decodeWith cfg.zeroFamilyMatch w) = false := by
  rcases t.cycle_cases with ⟨e, hf, hc⟩ | ⟨w, hf, hr, hc⟩ | ⟨w, s, hf, hr, hs, -⟩
  · simp [hc, hf]
  · simp [hc, hf, hr]
  · simp [Tracked.cycle_of_execute hf hr hs, hf, hr]

end Sys2Proof.Machine

namespace Sys2Proof

open Machine

/-- Settles O58: the table's values, the proofs that every configuration carries, and the two dispatches' one meaning. -/
theorem parametersAreTheTablesAndConstrained : Obligations.ParametersAreTheTablesAndConstrained := by
  refine ⟨?values, fun cfg => ?constraints, rfl, exec_eq_execute⟩
  case values => exact ⟨rfl, rfl, rfl, rfl, rfl, rfl, rfl, rfl, rfl, rfl, rfl, rfl, rfl, rfl, rfl, rfl⟩
  case constraints =>
    exact ⟨cfg.fbW_pos, cfg.fbH_pos, cfg.entry_lt, cfg.memSize_le, cfg.stackDepth_pos, cfg.cyclesPerTick_pos, cfg.font_fits⟩

/-- Settles O59: the check lets an instruction read written registers only, and no other is observed. -/
theorem unwrittenRegistersAreNeverRead : Obligations.UnwrittenRegistersAreNeverRead := by
  refine ⟨fun cfg t => t.cycle_refused_iff, fun cfg t u hu => ⟨Tracked.step_state hu, fun v i hv hi => ?_⟩⟩
  obtain ⟨v', i', hstep, hv', hi'⟩ := Tracked.step_withRegs ⟨hv, hi⟩ hu
  exact ⟨v', i', hstep, hv', hi'⟩

end Sys2Proof
end
